-- ==== Sys2Proof/Word.lean ====
section
/-! DEFINITION. The data types of the machine that are numbers: a cell of the Program Store or of the Output
Sequence (00_scope.md R7). A register, the Instruction Pointer and LEN are natural numbers (R5, R17) and have no
type of their own. -/

namespace Sys2Proof

/-- A cell: a 3-bit value 0..7, bit 0 the least significant (00_scope.md R7 and section 6). -/
abbrev Cell := BitVec 3

end Sys2Proof
end

