-- ==== Sys2Proof/Machine/Arith.lean ====
section
/-! DEFINITION. The arithmetic primitives on natural numbers (00_scope.md R10 to R12) and the bit length
(00_scope.md section 6). -/

namespace Sys2Proof.Machine

/-- `shr(v, n) = floor(v / 2^n)` (00_scope.md R10), as a right shift: `2^n` is never materialised and n is never
reduced (41_shift_divide.md R68). -/
def shr (v n : Nat) : Nat := v >>> n

/-- `xor(a, b)`, bitwise exclusive or with unlimited leading zeros (00_scope.md R11). -/
def xorNat (a b : Nat) : Nat := a ^^^ b

/-- `mod8(v) = v[2:0]`, a cell (00_scope.md R12). -/
def mod8 (v : Nat) : Cell := BitVec.ofNat 3 v

/-- `bl(v)`: 0 for 0, otherwise the least k with v < 2^k (00_scope.md section 6). -/
def bl (v : Nat) : Nat := if v = 0 then 0 else v.log2 + 1

end Sys2Proof.Machine
end

