-- ==== Sys2Proof/Syntax.lean ====
section
/-! DEFINITION. The instruction set as data: one constructor of `Instr` per row of the opcode map (30_encoding.md
R46), the operand forms (R43, R45), and what the decoder can answer (R47, 60_exceptions.md R81). -/

namespace Sys2Proof

/-- The three registers (10_state.md R13). -/
inductive Reg where
  | A | B | C
deriving DecidableEq, Repr

/-- The valid forms of a combo operand (30_encoding.md R45): a literal 0..3 or a register. The form `Invalid` of
R45 is the answer `none` of `comboForm`. -/
inductive Combo where
  /-- `Lit k`; well formed only for k in 0..3. -/
  | lit (k : Cell)
  /-- `Reg r`: operand cell 4 is A, 5 is B, 6 is C. -/
  | reg (r : Reg)
deriving DecidableEq, Repr

/-- The eight instructions, in the order of the opcode map (30_encoding.md R46). `bxc` has no operand: all eight
pairs (4, o) are the same instruction (R50). -/
inductive Instr where
  | adv (f : Combo)
  | bxl (k : Cell)
  | bst (f : Combo)
  | jnz (k : Cell)
  | bxc
  | out (f : Combo)
  | bdv (f : Combo)
  | cdv (f : Combo)
deriving DecidableEq, Repr

/-- The causes of DecodeError (60_exceptions.md R81). -/
inductive DecodeCause where
  /-- Code 1: a combo-kind opcode with operand cell 7. -/
  | invalidComboOperand
  /-- Code 2: an opcode cell above 7 (defensive; no 3-bit tape reaches it). -/
  | invalidOpcode
  /-- Code 3: an operand cell above 7 (no 3-bit tape reaches it). -/
  | invalidOperandCell
deriving DecidableEq, Repr

/-- What decoding a pair gives: an instruction, or the cause of the DecodeError it raises (30_encoding.md R47,
R49). -/
inductive Decoded where
  | ok (i : Instr)
  | rejected (c : DecodeCause)
deriving DecidableEq, Repr

end Sys2Proof
end

