-- ==== Sys2Proof/Decode.lean ====
section
/-! DEFINITION. The decoder of 30_encoding.md R47, total on any two naturals, and the encoder. The decoder works on
the naturals the cells denote (00_scope.md R9), so that the defensive range checks of R49 can be written down; with
3-bit cells they never fire. The order of the checks is that of 40_execution_engine.md R57. -/

namespace Sys2Proof

/-- `comboForm` (30_encoding.md R45, R47); `none` is the form `Invalid`. -/
def comboForm : Nat → Option Combo
  | 0 => some (.lit 0)
  | 1 => some (.lit 1)
  | 2 => some (.lit 2)
  | 3 => some (.lit 3)
  | 4 => some (.reg .A)
  | 5 => some (.reg .B)
  | 6 => some (.reg .C)
  | _ => none

/-- An instruction of operand kind "combo": the operand's range, then the combo-7 check (40_execution_engine.md R57,
checks 5 and 6). -/
def withCombo (make : Combo → Instr) (opd : Nat) : Decoded :=
  if 7 < opd then .rejected .invalidOperandCell
  else match comboForm opd with
    | some f => .ok (make f)
    | none => .rejected .invalidComboOperand

/-- An instruction of operand kind "literal": any cell is legal (30_encoding.md R44). -/
def withLiteral (make : Cell → Instr) (opd : Nat) : Decoded :=
  if 7 < opd then .rejected .invalidOperandCell
  else .ok (make (BitVec.ofNat 3 opd))

/-- An instruction of operand kind "ignored": the operand is dropped (30_encoding.md R47, R50), but one above 7 is
rejected for every opcode (R49). -/
def withIgnored (i : Instr) (opd : Nat) : Decoded :=
  if 7 < opd then .rejected .invalidOperandCell
  else .ok i

/-- The closed eight-way decode (30_encoding.md R46, R47; 40_execution_engine.md R56), with the opcode range check
of R49 as the last arm. -/
def decode (opc opd : Nat) : Decoded :=
  match opc with
  | 0 => withCombo .adv opd
  | 1 => withLiteral .bxl opd
  | 2 => withCombo .bst opd
  | 3 => withLiteral .jnz opd
  | 4 => withIgnored .bxc opd
  | 5 => withCombo .out opd
  | 6 => withCombo .bdv opd
  | 7 => withCombo .cdv opd
  | _ => .rejected .invalidOpcode

/-- The decoder on two cells, opcode cell first (20_memory.md R29). -/
def decodeCells (opc opd : Cell) : Decoded :=
  decode opc.toNat opd.toNat

/-- The code of a cause (60_exceptions.md R81; the numbers are the spec's own, 92_eei_decisions.md D4). -/
def DecodeCause.code : DecodeCause → Nat
  | .invalidComboOperand => 1
  | .invalidOpcode => 2
  | .invalidOperandCell => 3

/-- The instructions of a tape at its even indices, in order (30_encoding.md R40): what the cells decode to on the
even path. A last cell without a partner is no instruction (20_memory.md R33). -/
def decodeTape : List Cell → List Decoded
  | opc :: opd :: rest => decodeCells opc opd :: decodeTape rest
  | [_] => []
  | [] => []

/-- The operand cell of a combo form (30_encoding.md R45). -/
def Combo.cell : Combo → Cell
  | .lit k => k
  | .reg .A => 4
  | .reg .B => 5
  | .reg .C => 6

/-- The pair of cells of an instruction, opcode cell first (30_encoding.md R41, R46). The ignored operand of bxc is
written 0. -/
def encode : Instr → Cell × Cell
  | .adv f => (0, f.cell)
  | .bxl k => (1, k)
  | .bst f => (2, f.cell)
  | .jnz k => (3, k)
  | .bxc => (4, 0)
  | .out f => (5, f.cell)
  | .bdv f => (6, f.cell)
  | .cdv f => (7, f.cell)

/-- The 6-bit word of opcode_table.json, `w = 8 * opcode + operand` (30_encoding.md R42). -/
def encodeWord (i : Instr) : Nat :=
  8 * (encode i).1.toNat + (encode i).2.toNat

/-- The two cells of a 6-bit word of opcode_table.json: `w[5:3]`, the opcode cell, and `w[2:0]`, the operand cell
(30_encoding.md R42). -/
def wordCells (w : Nat) : Cell × Cell :=
  (BitVec.ofNat 3 (w / 8), BitVec.ofNat 3 w)

/-- The instruction the decoder reads from a word of opcode_table.json. A word has six bits, so a number of 64 or
more is no word of the table. -/
def decodeTableWord (_nbits w : Nat) : Option Instr :=
  if w < 64 then
    match decodeCells (wordCells w).1 (wordCells w).2 with
    | .ok i => some i
    | .rejected _ => none
  else none

end Sys2Proof
end

