-- ==== Sys2Proof/Machine/State.lean ====
section
/-! DEFINITION. The machine's state (10_state.md), the reasons a step can stop without a next state, the state right
after a launch (R24) and the one the host calls reset. -/

namespace Sys2Proof.Machine

/-- STATUS (10_state.md R19). -/
inductive Status where
  | running | halted | faulted
deriving DecidableEq, Repr

/-- The Program Store: the cells at indices 0 to LEN - 1, in order (20_memory.md R25). A dense list, so that equal
tapes are equal data and LEN is its length (assumption 5). -/
abbrev Memory := List Cell

/-- The state of the machine (10_state.md, the tuple at its head), with the tape, which no step writes
(20_memory.md R27; assumption 3). -/
structure State where
  /-- Register A, an unbounded natural (10_state.md R13). -/
  a : Nat
  /-- Register B. -/
  b : Nat
  /-- Register C. -/
  c : Nat
  /-- The Instruction Pointer (10_state.md R17). -/
  pc : Nat
  /-- OUT, the Output Sequence, oldest element first (10_state.md R18). -/
  out : List Cell
  /-- STATUS (10_state.md R19). -/
  status : Status
  /-- FAULT_CAUSE (10_state.md R20). -/
  faultCause : Option DecodeCause
  /-- FAULT_IP (10_state.md R20). -/
  faultIp : Option Nat
  /-- The Program Store; LEN is its length (20_memory.md R25). -/
  tape : Memory
deriving DecidableEq, Repr

/-- Why the engine answers no next state. A DecodeError is none of these: it is a next state, with STATUS FAULTED
and the fault record written (60_exceptions.md R83). -/
inductive Fault where
  /-- Raised by `step` when STATUS = HALTED: the engine has no step (40_execution_engine.md R53). It is the end of a
  normal run and no exception (60_exceptions.md R89). Safe (assumption 4). -/
  | noStepHalted
  /-- Raised by `step` when STATUS = FAULTED: the engine has no step (40_execution_engine.md R53). Safe
  (assumption 4). -/
  | noStepFaulted
  /-- Raised only by `stepUnder .faults`, the non-default variant ODD_TARGET = fault (92_eei_decisions.md D5), when a
  taken jnz has this odd literal; never by `step`. Safe (assumption 6). -/
  | oddJumpTarget (target : Nat)
deriving DecidableEq, Repr

/-- What is turned away with no effect. -/
inductive Refusal where
  /-- An instruction without a meaning; no arm of `exec` answers it. Safe. -/
  | notModelled (mnemonic : String)
  /-- Answered by `launch` for a tape of odd length: no machine is created (70_reset_and_hazards.md R98). Safe. -/
  | oddTapeLength
  /-- Answered by `fixedLaunch` for a launch value that the fixed register width cannot hold (10_state.md R16(c)), and,
  by the model's choice (assumption 7), for a width below the three bits of a cell. Safe. -/
  | launchDoesNotFit
deriving DecidableEq, Repr

/-- What a step answers. -/
abbrev StepResult := Host.Outcome State Fault Refusal

/-- The state immediately after a launch with A0, B0, C0 and the tape (10_state.md R24, 70_reset_and_hazards.md
R96). -/
def State.launched (a0 b0 c0 : Nat) (tape : Memory) : State where
  a := a0
  b := b0
  c := c0
  pc := 0
  out := []
  status := .running
  faultCause := none
  faultIp := none
  tape := tape

/-- The state the host calls reset. The spec gives A, B, C and the tape no default (10_state.md R24): 0, 0, 0 and the
empty tape are DESIGN CHOICES, unsafe (assumptions 1 and 2). Everything else is as R24 says. -/
def State.reset : State := State.launched 0 0 0 []

end Sys2Proof.Machine
end

