-- ==== Sys2Proof/Machine/Ops.lean ====
section
/-! DEFINITION. The named operations over registers, the Instruction Pointer, the Program Store, OUT, STATUS and the
fault record. Raising a DecodeError is `raiseDecodeError`. There is no return from an exception: nothing leaves
FAULTED (60_exceptions.md R87). -/

namespace Sys2Proof.Machine

/-- `x[r]` (00_scope.md R9, 10_state.md R13). -/
def readReg (r : Reg) (s : State) : Nat :=
  match r with
  | .A => s.a
  | .B => s.b
  | .C => s.c

/-- `x[r] <- v` (00_scope.md R9, 10_state.md R13). -/
def writeReg (r : Reg) (v : Nat) (s : State) : State :=
  match r with
  | .A => { s with a := v }
  | .B => { s with b := v }
  | .C => { s with c := v }

/-- `pc <- pc + 2` (40_execution_engine.md R62). -/
def advance (s : State) : State := { s with pc := s.pc + 2 }

/-- `pc <- t`, absolute, with no check on t (43_jump.md R73, R74(e)). -/
def jumpTo (t : Nat) (s : State) : State := { s with pc := t }

/-- `Emit(v)`: OUT <- OUT ++ [v] (00_scope.md R9, 44_output.md R78). -/
def emit (v : Cell) (s : State) : State := { s with out := s.out ++ [v] }

/-- The cell at an address of the Program Store; none outside the tape (20_memory.md R25). -/
def cellAt (addr : Nat) (s : State) : Option Cell := s.tape[addr]?

/-- The halting test and the fetch on a tape: none exactly when `pc + 1 >= LEN` (40_execution_engine.md R54), else
`MemRead(pc, 2)`, both cells whatever the opcode (R55) and whatever the parity of pc (20_memory.md R31). -/
def fetchPair (tape : Memory) (pc : Nat) : Option (Cell × Cell) :=
  if h : tape.length ≤ pc + 1 then none
  else some (tape[pc]'(by omega), tape[pc + 1]'(by omega))

/-- The pair the engine fetches in a state, or none when the halting test fires. -/
def fetch (s : State) : Option (Cell × Cell) := fetchPair s.tape s.pc

/-- What the pair at pc decodes to, or none when the halting test fires (40_execution_engine.md R57, checks 2 to
6). -/
def fetchDecode (s : State) : Option Decoded :=
  (fetch s).map fun p => decodeCells p.1 p.2

/-- The halt transition (40_execution_engine.md R54): STATUS <- HALTED and nothing else changes. -/
def halt (s : State) : State := { s with status := .halted }

/-- Taking the one exception, `raise DecodeError(cause, ip)` (60_exceptions.md R83): the fault record is written,
STATUS becomes FAULTED and nothing else changes. -/
def raiseDecodeError (cause : DecodeCause) (ip : Nat) (s : State) : State :=
  { s with faultCause := some cause, faultIp := some ip, status := .faulted }

/-- The form a tape has after a well-formed launch: an even length (70_reset_and_hazards.md R97(b)). A dense list has
no other form to keep (assumption 5). -/
def Memory.wf (m : Memory) : Bool := m.length % 2 == 0

/-- A tape with the pair (opc, opd) at indices pc and pc + 1: the cells before and after stay, and where the tape is
too short it is filled with cells 0 to an even length. Used only to stand for the host's load of a program
(assumption 2); no instruction writes the Program Store. -/
def placePair (tape : Memory) (pc : Nat) (p : Cell × Cell) : Memory :=
  let long := tape ++ List.replicate (pc + 2 + pc % 2 - tape.length) 0
  (long.set pc p.1).set (pc + 1) p.2

end Sys2Proof.Machine
end

