-- ==== Sys2Proof/Machine/Operands.lean ====
section
/-! DEFINITION. The value of a decoded operand (40_execution_engine.md R58, 30_encoding.md R44). The ignored operand
of bxc has no value (42_bitwise.md R72). -/

namespace Sys2Proof.Machine

/-- `val(form)` of a combo operand, evaluated in the state in which the instruction starts: a register gives its
whole unbounded value (40_execution_engine.md R58, R60). -/
def comboValue (f : Combo) (s : State) : Nat :=
  match f with
  | .lit k => k.toNat
  | .reg r => readReg r s

/-- A literal operand is the natural its cell denotes, with no sign, scaling or offset (30_encoding.md R44). -/
def literalValue (k : Cell) : Nat := k.toNat

end Sys2Proof.Machine
end

