-- ==== Sys2Proof/Machine/Bitwise.lean ====
section
/-! DEFINITION. The bitwise family bxl, bst, bxc (42_bitwise.md). -/

namespace Sys2Proof.Machine

/-- What the three share (42_bitwise.md, common facts): B gets a value and pc advances. -/
def setB (v : Nat) (s : State) : State := advance (writeReg .B v s)

/-- bxl: B = B xor literal (42_bitwise.md R69). -/
def execBxl (k : Cell) (s : State) : StepResult := .next (setB (xorNat s.b (literalValue k)) s)

/-- bst: B = combo mod 8 (42_bitwise.md R70). -/
def execBst (f : Combo) (s : State) : StepResult := .next (setB (mod8 (comboValue f s)).toNat s)

/-- bxc: B = B xor C, whatever the operand cell (42_bitwise.md R71, R72). -/
def execBxc (s : State) : StepResult := .next (setB (xorNat s.b s.c) s)

end Sys2Proof.Machine
end

