-- ==== Sys2Proof/Machine/Divide.lean ====
section
/-! DEFINITION. The division family adv, bdv, cdv (41_shift_divide.md). -/

namespace Sys2Proof.Machine

/-- What the three share (41_shift_divide.md, common facts, and R68): the destination gets `shr(A, val(form))`, both
read before the write, and pc advances. -/
def divideInto (d : Reg) (f : Combo) (s : State) : State :=
  advance (writeReg d (shr s.a (comboValue f s)) s)

/-- adv: A = floor(A / 2^combo) (41_shift_divide.md R65). -/
def execAdv (f : Combo) (s : State) : StepResult := .next (divideInto .A f s)

/-- bdv: B = floor(A / 2^combo) (41_shift_divide.md R66). -/
def execBdv (f : Combo) (s : State) : StepResult := .next (divideInto .B f s)

/-- cdv: C = floor(A / 2^combo) (41_shift_divide.md R67). -/
def execCdv (f : Combo) (s : State) : StepResult := .next (divideInto .C f s)

end Sys2Proof.Machine
end

