-- ==== Sys2Proof/Machine/Flags.lean ====
section
/-! DEFINITION. The machine has no status flags, condition codes or predicate registers (10_state.md R22). The one
condition an instruction tests is here. -/

namespace Sys2Proof.Machine

/-- The condition of jnz: A ≠ 0, on the whole unbounded value of A (10_state.md R22, 43_jump.md R73). -/
def jumpCondition (s : State) : Bool := s.a != 0

end Sys2Proof.Machine
end

