-- ==== Sys2Proof/Machine/Jump.lean ====
section
/-! DEFINITION. Control transfer: jnz, the machine's only jump (43_jump.md). -/

namespace Sys2Proof.Machine

/-- jnz: if A ≠ 0 then pc is the literal, absolute, odd or even, inside the tape or not; else the ordinary advance
(43_jump.md R73, R74). -/
def execJnz (k : Cell) (s : State) : StepResult :=
  .next (if jumpCondition s then jumpTo (literalValue k) s else advance s)

end Sys2Proof.Machine
end

