-- ==== Sys2Proof/Machine/Output.lean ====
section
/-! DEFINITION. Output: out and the output sequencer (44_output.md). -/

namespace Sys2Proof.Machine

/-- out: append (combo mod 8) to OUT; the append and the advance are one step (44_output.md R76, 20_memory.md R32).
The sink always accepts (R78). -/
def execOut (f : Combo) (s : State) : StepResult := .next (advance (emit (mod8 (comboValue f s)) s))

end Sys2Proof.Machine
end

