-- ==== Sys2Proof/Machine/Dispatch.lean ====
section
/-! DEFINITION. The closed eight-way dispatch (40_execution_engine.md R56): one arm per instruction. -/

namespace Sys2Proof.Machine

/-- The effect of a decoded instruction on a state (40_execution_engine.md R61, the arms of its match). -/
def exec (i : Instr) (s : State) : Host.Outcome State Fault Refusal :=
  match i with
  | .adv f => Sys2Proof.Machine.execAdv f s
  | .bxl k => Sys2Proof.Machine.execBxl k s
  | .bst f => Sys2Proof.Machine.execBst f s
  | .jnz k => Sys2Proof.Machine.execJnz k s
  | .bxc => Sys2Proof.Machine.execBxc s
  | .out f => Sys2Proof.Machine.execOut f s
  | .bdv f => Sys2Proof.Machine.execBdv f s
  | .cdv f => Sys2Proof.Machine.execCdv f s

end Sys2Proof.Machine
end

