-- ==== Sys2Proof/Machine/Step.lean ====
section
/-! DEFINITION. One step of the Execution Engine (40_execution_engine.md R61), with the checks in the order of R57. -/

namespace Sys2Proof.Machine

/-- One step (40_execution_engine.md R53, R57, R61): no step unless STATUS = RUNNING; the halt transition when the
halting test fires; a DecodeError when the pair at pc is rejected; else the instruction. -/
def step (s : State) : Host.Outcome State Fault Refusal :=
  match s.status with
  | .halted => .fault .noStepHalted
  | .faulted => .fault .noStepFaulted
  | .running =>
    match fetchDecode s with
    | none => .next (halt s)
    | some (.rejected cause) => .next (raiseDecodeError cause s.pc s)
    | some (.ok i) => exec i s

/-- The state with the word w of opcode_table.json placed as the pair at pc and the engine running, so that the next
step runs it. It stands for the host's launch of a tape (assumption 2). -/
def State.withFetchWord (s : State) (_nbits w : Nat) : State :=
  { s with tape := placePair s.tape s.pc (wordCells w), status := .running }

end Sys2Proof.Machine
end

