-- ==== Sys2Proof/Machine/Launch.lean ====
section
/-! DEFINITION. The host's side before and after a run (70_reset_and_hazards.md): the launch, and what the host
reads. -/

namespace Sys2Proof.Machine

/-- Launch(A0, B0, C0, Tape): the machine's reset (70_reset_and_hazards.md R96). Naturals and 3-bit cells are
well formed by their types; a tape of odd length is refused and no machine is created (R97, R98, the spec's decision
D15). -/
def launch (a0 b0 c0 : Nat) (tape : Memory) : StepResult :=
  if tape.wf then .next (State.launched a0 b0 c0 tape) else .refused .oddTapeLength

/-- The result of a run, (OUT, (A, B, C)): the host takes it when STATUS = HALTED and at no other time
(40_execution_engine.md R64, 44_output.md R79, 70_reset_and_hazards.md R103). -/
def State.result (s : State) : Option (List Cell × Nat × Nat × Nat) :=
  match s.status with
  | .halted => some (s.out, s.a, s.b, s.c)
  | .running => none
  | .faulted => none

/-- What the host reads as diagnostics when STATUS = FAULTED: A, B, C and OUT, which are no result
(60_exceptions.md R84). -/
def State.diagnostics (s : State) : Option (List Cell × Nat × Nat × Nat) :=
  match s.status with
  | .faulted => some (s.out, s.a, s.b, s.c)
  | .running => none
  | .halted => none

/-- The fault report: FAULT_CAUSE and FAULT_IP, when STATUS = FAULTED (60_exceptions.md R84). -/
def State.faultReport (s : State) : Option (DecodeCause × Nat) :=
  match s.status, s.faultCause, s.faultIp with
  | .faulted, some cause, some ip => some (cause, ip)
  | _, _, _ => none

end Sys2Proof.Machine
end

