-- ==== Sys2Proof/Machine/FixedWidth.lean ====
section
/-! DEFINITION. An implementation with registers of a fixed width W (10_state.md R16(c), 92_eei_decisions.md D12):
the same machine over W-bit registers, written out again over bit vectors. Its shifter gives 0 for every amount of W
or more, and a launch that does not fit is refused, never truncated. It is a second machine; the architecture is
`step`. -/

namespace Sys2Proof.Machine

/-- The state of the implementation: as `State`, with registers of w bits. -/
structure FixedState (w : Nat) where
  a : BitVec w
  b : BitVec w
  c : BitVec w
  pc : Nat
  out : List Cell
  status : Status
  faultCause : Option DecodeCause
  faultIp : Option Nat
  tape : Memory
deriving DecidableEq, Repr

/-- The architectural state an implementation state stands for. -/
def FixedState.toState {w : Nat} (x : FixedState w) : State where
  a := x.a.toNat
  b := x.b.toNat
  c := x.c.toNat
  pc := x.pc
  out := x.out
  status := x.status
  faultCause := x.faultCause
  faultIp := x.faultIp
  tape := x.tape

/-- The value of a combo operand in the implementation, as a shift amount or a source. -/
def fixedValue {w : Nat} (f : Combo) (x : FixedState w) : BitVec w :=
  match f with
  | .lit k => k.setWidth w
  | .reg .A => x.a
  | .reg .B => x.b
  | .reg .C => x.c

/-- The shifter of the implementation: a logical right shift, 0 for every amount of w or more (10_state.md
R16(c)). -/
def fixedShift {w : Nat} (v n : BitVec w) : BitVec w := v >>> n

/-- The effect of an instruction in the implementation. -/
def fixedExec {w : Nat} (i : Instr) (x : FixedState w) : FixedState w :=
  match i with
  | .adv f => { x with a := fixedShift x.a (fixedValue f x), pc := x.pc + 2 }
  | .bxl k => { x with b := x.b ^^^ k.setWidth w, pc := x.pc + 2 }
  | .bst f => { x with b := ((fixedValue f x).setWidth 3).setWidth w, pc := x.pc + 2 }
  | .jnz k => { x with pc := if x.a = 0 then x.pc + 2 else k.toNat }
  | .bxc => { x with b := x.b ^^^ x.c, pc := x.pc + 2 }
  | .out f => { x with out := x.out ++ [(fixedValue f x).setWidth 3], pc := x.pc + 2 }
  | .bdv f => { x with b := fixedShift x.a (fixedValue f x), pc := x.pc + 2 }
  | .cdv f => { x with c := fixedShift x.a (fixedValue f x), pc := x.pc + 2 }

/-- One step of the implementation. -/
def fixedStep {w : Nat} (x : FixedState w) : Host.Outcome (FixedState w) Fault Refusal :=
  match x.status with
  | .halted => .fault .noStepHalted
  | .faulted => .fault .noStepFaulted
  | .running =>
    match fetchPair x.tape x.pc with
    | none => .next { x with status := .halted }
    | some p =>
      match decodeCells p.1 p.2 with
      | .rejected cause =>
        .next { x with faultCause := some cause, faultIp := some x.pc, status := .faulted }
      | .ok i => .next (fixedExec i x)

/-- A launch of the implementation: refused as the architecture refuses it, or when a launch value does not fit in w
bits (10_state.md R16(c), 92_eei_decisions.md D12). A width below 3 is refused as well, though every launch value may
fit: R16(c) promises agreement only for M = max(3, bl(A0), bl(B0), bl(C0)) at most W, and gives no refusal there, so
that refusal is the model's choice (assumption 7). -/
def fixedLaunch (w a0 b0 c0 : Nat) (tape : Memory) : Host.Outcome (FixedState w) Fault Refusal :=
  if !tape.wf then .refused .oddTapeLength
  else if w < 3 || w < bl a0 || w < bl b0 || w < bl c0 then .refused .launchDoesNotFit
  else .next
    { a := BitVec.ofNat w a0, b := BitVec.ofNat w b0, c := BitVec.ofNat w c0, pc := 0, out := [],
      status := .running, faultCause := none, faultIp := none, tape := tape }

/-- That many steps of the implementation. -/
def fixedRun {w : Nat} : Nat → FixedState w → Host.Outcome (FixedState w) Fault Refusal
  | 0, x => .next x
  | n + 1, x =>
    match fixedStep x with
    | .next y => fixedRun n y
    | .fault r => .fault r
    | .refused r => .refused r

/-- An answer of the implementation read as an answer of the architecture. -/
def fixedAnswer {w : Nat} : Host.Outcome (FixedState w) Fault Refusal → StepResult
  | .next x => .next x.toState
  | .fault r => .fault r
  | .refused r => .refused r

end Sys2Proof.Machine
end

