-- ==== Sys2Proof/Machine/Runner.lean ====
section
/-! DEFINITION. The run, the iteration of `step` from the launch until STATUS is not RUNNING (40_execution_engine.md
R64, 70_reset_and_hazards.md R103), by a runner with fuel. The fuel is no state of the machine (60_exceptions.md R93):
the engine itself has no step limit (70_reset_and_hazards.md R101). -/

namespace Sys2Proof.Machine

/-- How a run with fuel ends (40_execution_engine.md R64): out of fuel is an outcome of its own, never a halt. -/
inductive RunEnd where
  | halted (s : State)
  | faulted (s : State)
  | outOfFuel (s : State)
  /-- The engine answered no next state although RUNNING; `step` never does so (40_execution_engine.md R53). -/
  | stopped (s : State)
deriving DecidableEq, Repr

/-- The run from a state with fuel for that many steps. -/
def runWithFuel : Nat → State → RunEnd
  | fuel, s =>
    match s.status with
    | .halted => .halted s
    | .faulted => .faulted s
    | .running =>
      match fuel with
      | 0 => .outOfFuel s
      | n + 1 =>
        match step s with
        | .next t => runWithFuel n t
        | .fault _ => .stopped s
        | .refused _ => .stopped s

/-- `execute(registers, program)` with fuel (40_execution_engine.md R64): the launch and the run. -/
def execute (fuel a0 b0 c0 : Nat) (tape : Memory) : Host.Outcome RunEnd Fault Refusal :=
  match launch a0 b0 c0 tape with
  | .next s => .next (runWithFuel fuel s)
  | .fault r => .fault r
  | .refused r => .refused r

end Sys2Proof.Machine
end

