-- ==== Sys2Proof/Config.lean ====
section
/-! DEFINITION. The implementation parameters that a model takes as arguments (00_scope.md section 5). The machine
has no free values (93_implementation_defined.md): the launch parameters A0, B0, C0 and Tape are arguments of
`Machine.launch`, and `ODD_TARGET` is the one switch. -/

namespace Sys2Proof

/-- The switch ODD_TARGET of 92_eei_decisions.md D5: what a taken jnz with an odd literal does. -/
inductive OddTarget where
  /-- The architecture: execution goes on at the odd index (43_jump.md R74(c)). -/
  | continues
  /-- The stricter, non-default variant: a fault on an odd jump target (20_memory.md R31). -/
  | faults
deriving DecidableEq, Repr

/-- The default of the switch, which is the architecture (00_scope.md, table of parameters). -/
def Config.oddTarget : OddTarget := .continues

end Sys2Proof
end

