-- ==== Sys2Proof/Machine/StrictTarget.lean ====
section
/-! DEFINITION. The switch ODD_TARGET (92_eei_decisions.md D5, 20_memory.md R31): the architecture's step, and the
stricter variant that a model may offer, in which a taken jnz with an odd literal is a fault. -/

namespace Sys2Proof.Machine

/-- The odd target the next step would jump to, if it is a taken jnz with an odd literal (20_memory.md R31). -/
def oddJump (s : State) : Option Nat :=
  match s.status, fetchDecode s with
  | .running, some (.ok (.jnz k)) =>
    if jumpCondition s && k.toNat % 2 == 1 then some k.toNat else none
  | _, _ => none

/-- The step under a setting of ODD_TARGET. The spec gives the strict fault no cause and no effect on the fault
record, so it is a stop of the model's own, which creates no next state (assumption 6). -/
def stepUnder (policy : OddTarget) (s : State) : StepResult :=
  match policy, oddJump s with
  | .faults, some t => .fault (.oddJumpTarget t)
  | .faults, none => step s
  | .continues, _ => step s

end Sys2Proof.Machine
end

