-- ==== Sys2Proof/WellFormed.lean ====
section
/-! DEFINITION. Which terms of `Instr` an encoding can give: the literal of a combo operand is 0..3
(30_encoding.md R45). A literal operand of bxl or jnz is any cell (R44). -/

namespace Sys2Proof

/-- A combo form is well formed when its literal is in 0..3 (30_encoding.md R45). -/
def Combo.wf : Combo → Bool
  | .lit k => decide (k.toNat ≤ 3)
  | .reg _ => true

/-- An instruction is well formed when its combo operand is. -/
def Instr.wf : Instr → Bool
  | .adv f => f.wf
  | .bxl _ => true
  | .bst f => f.wf
  | .jnz _ => true
  | .bxc => true
  | .out f => f.wf
  | .bdv f => f.wf
  | .cdv f => f.wf

end Sys2Proof
end

