-- ==== Sys2Proof/Safety.lean ====
section
/-! DEFINITION. The words that claims about runs are written in: runs, the invariants, and the tapes some rules
speak of. -/

namespace Sys2Proof.Machine

/-- That many steps from a state, through the host's interface; it answers a next state only if every step does. -/
abbrev runFor (k : Nat) (s : State) : StepResult := Host.Core.run Sys2Proof.core k s

/-- The pair at pc is one of the five reserved pairs (30_encoding.md R47). -/
def atReservedPair (s : State) : Prop :=
  fetchDecode s = some (.rejected .invalidComboOperand)

/-- What the spec says of every reachable state: LEN is even (70_reset_and_hazards.md R97(b)), pc is bounded
(10_state.md R21(a)), and STATUS and the fault record agree with each other and with the tape (10_state.md R19, R20,
40_execution_engine.md R54, 60_exceptions.md R82, R83). -/
structure Inv (s : State) : Prop where
  lenEven : s.tape.length % 2 = 0
  pcBound : s.pc ≤ max s.tape.length 7
  runningRecord : s.status = .running → s.faultCause = none ∧ s.faultIp = none
  haltedRecord : s.status = .halted →
    s.faultCause = none ∧ s.faultIp = none ∧ s.tape.length ≤ s.pc + 1
  faultedRecord : s.status = .faulted →
    s.faultCause = some .invalidComboOperand ∧ s.faultIp = some s.pc ∧ atReservedPair s

/-- The next step of a running state is a taken jnz, to the literal k (43_jump.md R73). -/
def takesJump (s : State) (k : Cell) : Prop :=
  s.status = .running ∧ fetchDecode s = some (.ok (.jnz k)) ∧ s.a ≠ 0

/-- Every jnz at an even index of the tape has an even literal (10_state.md R21(c)). -/
def EvenJumps (tape : Memory) : Prop :=
  ∀ j opd, j % 2 = 0 → fetchPair tape j = some (3, opd) → opd.toNat % 2 = 0

/-- No pair of the tape, at an even or an odd index, is one of the five reserved pairs (30_encoding.md R47). -/
def NoReservedPair (tape : Memory) : Prop :=
  ∀ j opc opd, fetchPair tape j = some (opc, opd) → ∃ i, decodeCells opc opd = .ok i

/-- The registers an instruction reads (10_state.md R15, the table's columns "always reads" and "reads through combo
operand"). -/
def readsReg : Instr → Reg → Bool
  | .adv f, r => r == .A || f == .reg r
  | .bxl _, r => r == .B
  | .bst f, r => f == .reg r
  | .jnz _, r => r == .A
  | .bxc, r => r == .B || r == .C
  | .out f, r => f == .reg r
  | .bdv f, r => r == .A || f == .reg r
  | .cdv f, r => r == .A || f == .reg r

/-- The register an instruction writes (10_state.md R15, the table's column "writes"). -/
def writesReg : Instr → Reg → Bool
  | .adv _, r => r == .A
  | .bxl _, r => r == .B
  | .bst _, r => r == .B
  | .jnz _, _ => false
  | .bxc, r => r == .B
  | .out _, _ => false
  | .bdv _, r => r == .B
  | .cdv _, r => r == .C

/-- M = max(3, bl(A0), bl(B0), bl(C0)) (10_state.md R16). -/
def launchBits (a0 b0 c0 : Nat) : Nat := max 3 (max (bl a0) (max (bl b0) (bl c0)))

/-- The next step of the state executes an out (44_output.md R76). -/
def executesOut (s : State) : Bool :=
  match s.status, fetchDecode s with
  | .running, some (.ok (.out _)) => true
  | _, _ => false

/-- How many out instructions the first k steps from a state execute (44_output.md R77). -/
def outsExecuted : Nat → State → Nat
  | 0, _ => 0
  | k + 1, s =>
    (if executesOut s then 1 else 0) +
      match step s with
      | .next t => outsExecuted k t
      | .fault _ => 0
      | .refused _ => 0

/-- A body instruction of the loops of 70_reset_and_hazards.md R102: no jnz, and an adv only with a literal. -/
def shrinkBody : Instr → Bool
  | .jnz _ => false
  | .adv (.lit _) => true
  | .adv (.reg _) => false
  | .bxl _ => true
  | .bst _ => true
  | .bxc => true
  | .out _ => true
  | .bdv _ => true
  | .cdv _ => true

/-- What an instruction adds to k', the sum of the adv literals of 70_reset_and_hazards.md R102. -/
def advShift : Instr → Nat
  | .adv (.lit k) => k.toNat
  | _ => 0

/-- k', the sum of the literal operands of the advs of a body (70_reset_and_hazards.md R102). -/
def bodyShift (body : List Instr) : Nat := (body.map advShift).sum

/-- The number of passes, p = max(1, ceil(bl(A0) / k')) (70_reset_and_hazards.md R102). -/
def passes (a0 k : Nat) : Nat := max 1 ((bl a0 + (k - 1)) / k)

/-- The state with cells put before the ones OUT holds. -/
def withEarlierOut (o : List Cell) (s : State) : State := { s with out := o ++ s.out }

/-- An answer with the next state, if there is one, changed by a function. -/
def mapNext (g : State → State) : StepResult → StepResult
  | .next s => .next (g s)
  | .fault r => .fault r
  | .refused r => .refused r

/-- A run of k steps that stays clear of a DecodeError: the premise a claim about a result carries (60_exceptions.md
R84, D9). -/
def SafeRun (k : Nat) (s : State) : Prop :=
  ∀ j, j ≤ k → ∀ t, runFor j s = .next t → t.status ≠ .faulted

end Sys2Proof.Machine
end

