-- ==== Sys2Proof/Certificates/Slice0/Obligations.lean ====
section
/-! DEFINITION. The statements for the provers. Each docstring names the rule or section of spec/ the statement
formalises, and where a clause rests on a decision or an inference that the spec marks as its own, names it. -/

open Sys2Proof Sys2Proof.Machine

/-! Arithmetic -/

/-- `shr(v, n)` is floor(v / 2^n), bit i of it is bit i + n of v, with no masking of n (00_scope.md section 7, the
definition of shr), and the consequences that the definition lists: the last five clauses are marked there as derived
from it. -/
def Obligations.ShiftRightIsFloorDivision : Prop :=
  ∀ v n : Nat,
    shr v n = v / 2 ^ n ∧
    (∀ i, shr v n / 2 ^ i % 2 = v / 2 ^ (i + n) % 2) ∧
    shr v 0 = v ∧
    (shr v n = 0 ↔ bl v ≤ n) ∧
    shr 0 n = 0 ∧
    shr v n ≤ v ∧
    ∀ m, shr (shr v m) n = shr v (m + n)

/-- 00_scope.md section 7, the definition of xor. That xor is the bitwise operation is the spec's passage G1 from
general knowledge (93_implementation_defined.md; assumption 8). -/
def Obligations.XorIsBitwiseExclusiveOr : Prop :=
  ∀ a b : Nat,
    (∀ i, xorNat a b / 2 ^ i % 2 = (a / 2 ^ i % 2 + b / 2 ^ i % 2) % 2) ∧
    xorNat a 0 = a ∧
    xorNat a a = 0 ∧
    xorNat a b = xorNat b a ∧
    (∀ c, xorNat (xorNat a b) c = xorNat a (xorNat b c)) ∧
    bl (xorNat a b) ≤ max (bl a) (bl b)

/-- 00_scope.md R12: `mod8(v) = v mod 8 = v[2:0]`, a cell in 0..7. -/
def Obligations.Mod8KeepsTheLowThreeBits : Prop :=
  ∀ v : Nat,
    (mod8 v).toNat = v % 8 ∧
    (mod8 v).toNat ≤ 7 ∧
    ∀ i, i < 3 → (mod8 v).toNat / 2 ^ i % 2 = v / 2 ^ i % 2

/-! Encoding and decoding -/

/-- 40_execution_engine.md R58: 0 to 3 are themselves, 4 is A, 5 is B, 6 is C, the whole register each time, and 7 has
no form. -/
def Obligations.ComboOperandValues : Prop :=
  ∀ s : State,
    (∀ o, o ≤ 3 → ∃ f, comboForm o = some f ∧ comboValue f s = o) ∧
    (∃ f, comboForm 4 = some f ∧ comboValue f s = s.a) ∧
    (∃ f, comboForm 5 = some f ∧ comboValue f s = s.b) ∧
    (∃ f, comboForm 6 = some f ∧ comboValue f s = s.c) ∧
    comboForm 7 = none

/-- Decoding the encoding of a well-formed instruction gives it back, as two cells and as a word of
opcode_table.json (30_encoding.md sections 1 to 3; the decoder is the spec's own derivation from its opcode map, and
the packing into a word its decision D17). -/
def Obligations.DecodeInvertsEncode : Prop :=
  ∀ i : Instr, i.wf = true →
    decodeCells (encode i).1 (encode i).2 = .ok i ∧ decodeTableWord 8 (encodeWord i) = some i

/-- Every pair that decodes is the encoding of what it decodes to, but for the ignored operand of bxc
(30_encoding.md sections 3 and 4; for the pair (4, 7) the spec's decision D6). -/
def Obligations.DecodedPairsReencode : Prop :=
  ∀ (opc opd : Cell) (i : Instr), decodeCells opc opd = .ok i →
    i.wf = true ∧ (encode i = (opc, opd) ∨ i = .bxc ∧ opc = 4)

/-- Of the 64 pairs exactly five are reserved, a combo-kind opcode with operand 7, and every other pair is an
instruction (30_encoding.md section 3, derived there from the opcode map). -/
def Obligations.ReservedPairsAreExactlyFive : Prop :=
  (∀ opc opd : Cell,
    (decodeCells opc opd = .rejected .invalidComboOperand ↔
      opd = 7 ∧ (opc = 0 ∨ opc = 2 ∨ opc = 5 ∨ opc = 6 ∨ opc = 7))) ∧
  (∀ opc opd : Cell, decodeCells opc opd ≠ .rejected .invalidComboOperand → ∃ i, decodeCells opc opd = .ok i) ∧
  (List.range 64).filter (fun w => (decodeTableWord 8 w).isNone) = [7, 23, 47, 55, 63]

/-- Words written out from the encoding decode to what they stand for: the spec's own examples (30_encoding.md
section 6) and one each of bdv and cdv (41_shift_divide.md, worked examples). -/
def Obligations.WrittenWordsDecode : Prop :=
  decodeTableWord 8 0b000001 = some (.adv (.lit 1)) ∧
  decodeTableWord 8 0b101100 = some (.out (.reg .A)) ∧
  decodeTableWord 8 0b010110 = some (.bst (.reg .C)) ∧
  decodeTableWord 8 0b011000 = some (.jnz 0) ∧
  decodeTableWord 8 0b100000 = some .bxc ∧
  decodeTableWord 8 0b001111 = some (.bxl 7) ∧
  decodeTableWord 8 0b110101 = some (.bdv (.reg .B)) ∧
  decodeTableWord 8 0b111101 = some (.cdv (.reg .B))

/-- The defensive checks: an opcode above 7 is rejected first, then an operand above 7 whatever the opcode; 3-bit
cells reach neither (30_encoding.md section 4; the second check and the order are the spec's decisions D14 and D7). -/
def Obligations.DefensiveRangeChecksComeFirst : Prop :=
  (∀ opc opd, 7 < opc → decode opc opd = .rejected .invalidOpcode) ∧
  (∀ opc opd, opc ≤ 7 → 7 < opd → decode opc opd = .rejected .invalidOperandCell) ∧
  (∀ opc opd : Cell,
    decodeCells opc opd ≠ .rejected .invalidOpcode ∧ decodeCells opc opd ≠ .rejected .invalidOperandCell)

/-! The eight instructions: the whole next state (so also the frame: every field not named is unchanged), and which
pairs are the instruction -/

/-- adv, with its corner cases and its worked example (41_shift_divide.md, the rule of adv, opcode 0). The corner case
that adv A gives 0 is marked there as derived from the definition of shr. -/
def Obligations.AdvDividesAByAPowerOfTwo : Prop :=
  (∀ f s, exec (.adv f) s = .next { s with a := s.a / 2 ^ comboValue f s, pc := s.pc + 2 }) ∧
  (∀ s opd f, s.status = .running → fetch s = some (0, opd) → comboForm opd.toNat = some f →
    step s = exec (.adv f) s) ∧
  (∀ s, s.status = .running → fetch s = some (0, 7) →
    ∃ t, step s = .next t ∧ t.status = .faulted ∧ t.a = s.a) ∧
  (∀ s, exec (.adv (.lit 0)) s = .next { s with pc := s.pc + 2 }) ∧
  (∀ s, exec (.adv (.reg .A)) s = .next { s with a := 0, pc := s.pc + 2 }) ∧
  (∀ f s, bl s.a ≤ comboValue f s → exec (.adv f) s = .next { s with a := 0, pc := s.pc + 2 }) ∧
  (∀ f s, s.a = 0 → exec (.adv f) s = .next { s with pc := s.pc + 2 }) ∧
  (∀ i s t, exec i s = .next t → t.a ≠ s.a → ∃ f, i = .adv f) ∧
  (∀ s, s.a = 2024 → exec (.adv (.lit 1)) s = .next { s with a := 1012, pc := s.pc + 2 })

/-- bdv, with its corner cases and its worked example (41_shift_divide.md, the rule of bdv, opcode 6). The worked
example, the last clause, is marked there as derived from that rule. -/
def Obligations.BdvDividesAIntoB : Prop :=
  (∀ f s, exec (.bdv f) s = .next { s with b := s.a / 2 ^ comboValue f s, pc := s.pc + 2 }) ∧
  (∀ s opd f, s.status = .running → fetch s = some (6, opd) → comboForm opd.toNat = some f →
    step s = exec (.bdv f) s) ∧
  (∀ s, s.status = .running → fetch s = some (6, 7) →
    ∃ t, step s = .next t ∧ t.status = .faulted ∧ t.b = s.b) ∧
  (∀ s, exec (.bdv (.lit 0)) s = .next { s with b := s.a, pc := s.pc + 2 }) ∧
  (∀ s, exec (.bdv (.reg .A)) s = .next { s with b := 0, pc := s.pc + 2 }) ∧
  (∀ s, exec (.bdv (.reg .B)) s = .next { s with b := s.a / 2 ^ s.b, pc := s.pc + 2 }) ∧
  (∀ s, s.a = 1000 → s.b = 9 → exec (.bdv (.reg .B)) s = .next { s with b := 1, pc := s.pc + 2 })

/-- cdv, with its corner cases and its worked example (41_shift_divide.md, the rule of cdv, opcode 7). The worked
example, the last clause, is marked there as derived from that rule. -/
def Obligations.CdvDividesAIntoC : Prop :=
  (∀ f s, exec (.cdv f) s = .next { s with c := s.a / 2 ^ comboValue f s, pc := s.pc + 2 }) ∧
  (∀ s opd f, s.status = .running → fetch s = some (7, opd) → comboForm opd.toNat = some f →
    step s = exec (.cdv f) s) ∧
  (∀ s, s.status = .running → fetch s = some (7, 7) →
    ∃ t, step s = .next t ∧ t.status = .faulted ∧ t.c = s.c) ∧
  (∀ s, exec (.cdv (.lit 0)) s = .next { s with c := s.a, pc := s.pc + 2 }) ∧
  (∀ s, exec (.cdv (.reg .A)) s = .next { s with c := 0, pc := s.pc + 2 }) ∧
  (∀ s, exec (.cdv (.reg .C)) s = .next { s with c := s.a / 2 ^ s.c, pc := s.pc + 2 }) ∧
  (∀ i s t, exec i s = .next t → t.c ≠ s.c → ∃ f, i = .cdv f) ∧
  (∀ s, s.a = 13 → s.b = 2 → exec (.cdv (.reg .B)) s = .next { s with c := 3, pc := s.pc + 2 })

/-- 42_bitwise.md R69, with its corner cases and its worked example; every operand cell 0..7 is legal. -/
def Obligations.BxlXorsALiteralIntoB : Prop :=
  (∀ k s, exec (.bxl k) s = .next { s with b := xorNat s.b k.toNat, pc := s.pc + 2 }) ∧
  (∀ s opd, s.status = .running → fetch s = some (1, opd) → step s = exec (.bxl opd) s) ∧
  (∀ k s t, exec (.bxl k) s = .next t → t.b / 8 = s.b / 8) ∧
  (∀ s, exec (.bxl 0) s = .next { s with pc := s.pc + 2 }) ∧
  (∀ k s t u, exec (.bxl k) s = .next t → exec (.bxl k) t = .next u → u.b = s.b) ∧
  (∀ k s t, s.b < 8 → exec (.bxl k) s = .next t → t.b < 8) ∧
  (∀ s t, exec (.bxl 7) s = .next t → t.b % 8 = 7 - s.b % 8) ∧
  (∀ s, s.b = 29 → exec (.bxl 7) s = .next { s with b := 26, pc := s.pc + 2 })

/-- 42_bitwise.md R70, with its corner cases and its worked example. -/
def Obligations.BstTakesTheLowThreeBits : Prop :=
  (∀ f s, exec (.bst f) s = .next { s with b := comboValue f s % 8, pc := s.pc + 2 }) ∧
  (∀ s opd f, s.status = .running → fetch s = some (2, opd) → comboForm opd.toNat = some f →
    step s = exec (.bst f) s) ∧
  (∀ s, s.status = .running → fetch s = some (2, 7) →
    ∃ t, step s = .next t ∧ t.status = .faulted ∧ t.b = s.b) ∧
  (∀ k s, (Combo.lit k).wf = true → exec (.bst (.lit k)) s = .next { s with b := k.toNat, pc := s.pc + 2 }) ∧
  (∀ s, exec (.bst (.reg .A)) s = .next { s with b := s.a % 8, pc := s.pc + 2 }) ∧
  (∀ s, exec (.bst (.reg .B)) s = .next { s with b := s.b % 8, pc := s.pc + 2 }) ∧
  (mod8 (2 ^ 64 + 13)).toNat = 5 ∧
  (∀ s, s.c = 9 → exec (.bst (.reg .C)) s = .next { s with b := 1, pc := s.pc + 2 })

/-- bxc, 42_bitwise.md, its rule with the corner cases and the worked example; every pair (4, o) is this instruction.
That (4, 7) does not fault is the spec's decision D6 (assumption 8). -/
def Obligations.BxcXorsCIntoBWhateverItsOperand : Prop :=
  (∀ s, exec .bxc s = .next { s with b := xorNat s.b s.c, pc := s.pc + 2 }) ∧
  (∀ s opd, s.status = .running → fetch s = some (4, opd) → step s = exec .bxc s) ∧
  (∀ s, s.c = 0 → exec .bxc s = .next { s with pc := s.pc + 2 }) ∧
  (∀ s, s.b = s.c → exec .bxc s = .next { s with b := 0, pc := s.pc + 2 }) ∧
  (∀ s t, exec .bxc s = .next t → bl t.b ≤ max (bl s.b) (bl s.c)) ∧
  (∀ s, s.b = 2024 → s.c = 43690 → exec .bxc s = .next { s with b := 44354, pc := s.pc + 2 })

/-- 43_jump.md R73: absolute, on the whole value of A, every literal 0..7 legal; writes pc only. -/
def Obligations.JnzJumpsAbsolutelyWhenAIsNotZero : Prop :=
  (∀ k s, s.a ≠ 0 → exec (.jnz k) s = .next { s with pc := k.toNat }) ∧
  (∀ k s, s.a = 0 → exec (.jnz k) s = .next { s with pc := s.pc + 2 }) ∧
  (∀ s opd, s.status = .running → fetch s = some (3, opd) → step s = exec (.jnz opd) s)

/-- 44_output.md R76, with its corner cases and its worked example. -/
def Obligations.OutAppendsOneCell : Prop :=
  (∀ f s, exec (.out f) s = .next { s with out := s.out ++ [mod8 (comboValue f s)], pc := s.pc + 2 }) ∧
  (∀ s opd f, s.status = .running → fetch s = some (5, opd) → comboForm opd.toNat = some f →
    step s = exec (.out f) s) ∧
  (∀ s, s.status = .running → fetch s = some (5, 7) →
    ∃ t, step s = .next t ∧ t.status = .faulted ∧ t.out = s.out) ∧
  (∀ k s, exec (.out (.lit k)) s = .next { s with out := s.out ++ [k], pc := s.pc + 2 }) ∧
  (∀ s, s.a = 10 → exec (.out (.reg .A)) s = .next { s with out := s.out ++ [2], pc := s.pc + 2 })

/-- An instruction whose destination is one of its sources uses the old value (40_execution_engine.md section 4,
derived there from the opcode map; 70_reset_and_hazards.md section 3). -/
def Obligations.SameRegisterUsesTheOldValue : Prop :=
  ∀ s : State,
    exec (.adv (.reg .A)) s = .next { s with a := shr s.a s.a, pc := s.pc + 2 } ∧
    exec (.bdv (.reg .B)) s = .next { s with b := shr s.a s.b, pc := s.pc + 2 } ∧
    exec (.cdv (.reg .C)) s = .next { s with c := shr s.a s.c, pc := s.pc + 2 } ∧
    exec (.bst (.reg .B)) s = .next { s with b := (mod8 s.b).toNat, pc := s.pc + 2 }

/-- The read and write table (10_state.md section 1): an instruction changes no register but its own, what it writes,
appends and jumps to is the same in two states that agree on the registers it reads, and it changes nothing but
registers, OUT and pc. -/
def Obligations.InstructionsReadAndWriteByTheTable : Prop :=
  ∀ (i : Instr) (s t : State), exec i s = .next t →
    (∀ r, writesReg i r = false → readReg r t = readReg r s) ∧
    ((∀ f, i ≠ .out f) → t.out = s.out) ∧
    t.tape = s.tape ∧ t.status = s.status ∧ t.faultCause = s.faultCause ∧ t.faultIp = s.faultIp ∧
    ∀ s' t' : State, exec i s' = .next t' →
      (∀ r, readsReg i r = true → readReg r s' = readReg r s) →
      (∀ r, writesReg i r = true → readReg r t' = readReg r t) ∧
      (∃ v, t.out = s.out ++ v ∧ t'.out = s'.out ++ v) ∧
      (s'.pc = s.pc → t'.pc = t.pc)

/-! The step -/

/-- When the two cells at pc decode to an instruction, a running engine's step is that instruction's effect, and
nothing else is done around it (40_execution_engine.md section 5). -/
def Obligations.StepRunsTheDecodedInstruction : Prop :=
  ∀ (s : State) (opc opd : Cell) (i : Instr), s.status = .running →
    cellAt s.pc s = some opc → cellAt (s.pc + 1) s = some opd → decodeCells opc opd = .ok i →
    step s = exec i s

/-- A step exactly when RUNNING, and it is the halt transition, a fault, or the execution of one instruction
(40_execution_engine.md section 1). That the halt is a step which sets STATUS is the spec's decision D18, the form of
the fault record its D4, and that a fault leaves everything else as it was its D8 (assumption 8). -/
def Obligations.TheEngineStepsExactlyWhileRunning : Prop :=
  ∀ s : State,
    ((∃ t, step s = .next t) ↔ s.status = .running) ∧
    ∀ t, step s = .next t →
      (fetchDecode s = none ∧ t = { s with status := .halted }) ∨
      (∃ cause, fetchDecode s = some (.rejected cause) ∧
        t = { s with faultCause := some cause, faultIp := some s.pc, status := .faulted }) ∨
      ∃ i, fetchDecode s = some (.ok i) ∧ exec i s = .next t

/-- The halting test (40_execution_engine.md section 2): a running engine halts exactly when pc + 1 >= LEN, and then
nothing but STATUS changes. That the halt is a step which sets a STATUS register is the spec's decision D18. -/
def Obligations.TheHaltingTestEndsTheRun : Prop :=
  (∀ s : State, s.status = .running → s.tape.length ≤ s.pc + 1 →
    step s = .next { s with status := .halted }) ∧
  (∀ s t : State, step s = .next t → t.status = .halted → s.tape.length ≤ s.pc + 1) ∧
  (∀ s : State, s.status = .running → s.tape = [] → step s = .next { s with status := .halted })

/-- The fetch never reads outside the tape, and there is no partial fetch: a pair half inside the tape halts the machine
whatever its opcode cell (20_memory.md section 4). That this halt is a step which sets STATUS is the spec's decision
D18 (assumption 8). -/
def Obligations.TheFetchStaysInsideTheTape : Prop :=
  (∀ s p, fetch s = some p →
    s.pc + 2 ≤ s.tape.length ∧ cellAt s.pc s = some p.1 ∧ cellAt (s.pc + 1) s = some p.2) ∧
  (∀ s, fetch s = none ↔ s.tape.length ≤ s.pc + 1) ∧
  (∀ s opc, s.status = .running → cellAt s.pc s = some opc → cellAt (s.pc + 1) s = none →
    step s = .next { s with status := .halted })

/-- 20_memory.md R27: nothing writes the Program Store after launch, in one step or in a run, and an instruction
changes only registers, pc and OUT. -/
def Obligations.TheProgramStoreIsNeverWritten : Prop :=
  (∀ s t, step s = .next t → t.tape = s.tape ∧ ∀ addr, cellAt addr t = cellAt addr s) ∧
  (∀ k s t, runFor k s = .next t → t.tape = s.tape) ∧
  (∀ i s t, exec i s = .next t →
    t = { s with a := t.a, b := t.b, c := t.c, pc := t.pc, out := t.out })

/-- 40_execution_engine.md R62: after an executed instruction pc is advanced by exactly 2, but for a taken jnz, which
sets it to its literal; a step that faults or halts does not move it. -/
def Obligations.PcAdvancesByTwoUnlessAJumpIsTaken : Prop :=
  ∀ s t : State, step s = .next t →
    (t.status = .running →
      (∃ k, takesJump s k ∧ t.pc = k.toNat) ∨ (∀ k, ¬ takesJump s k) ∧ t.pc = s.pc + 2) ∧
    (t.status ≠ .running → t.pc = s.pc)

/-- A jump reaches only the indices 0 to 7: an index of 8 or more is reached only by sequential advance
(20_memory.md section 5, derived there from the rule of jnz). -/
def Obligations.JumpsReachOnlyTheFirstEightCells : Prop :=
  ∀ s t : State, step s = .next t → t.status = .running → 8 ≤ t.pc → t.pc = s.pc + 2

/-- STATUS changes at most once in a run: once it is HALTED or FAULTED there is no further step (10_state.md section 4,
derived there; the register is the spec's decision D3, the stop's form assumption 4). -/
def Obligations.StatusChangesAtMostOnce : Prop :=
  (∀ j s t, runFor j s = .next t → t.status ≠ .running → ∀ k u, runFor (j + k + 1) s ≠ .next u) ∧
  (∀ s, s.status = .halted → step s = .fault .noStepHalted) ∧
  (∀ s, s.status = .faulted → step s = .fault .noStepFaulted)

/-! Taking the exception -/

/-- A reserved pair raises DecodeError(InvalidComboOperand, pc) and performs no part of the instruction
(40_execution_engine.md section 4); what the raise does to STATUS and the fault record, and that the rest is kept, is
60_exceptions.md section 2, with the spec's decisions D4 and D8 (assumption 8). -/
def Obligations.ReservedPairsRaiseADecodeError : Prop :=
  ∀ (s : State) (opc : Cell), s.status = .running → fetch s = some (opc, 7) →
    (opc = 0 ∨ opc = 2 ∨ opc = 5 ∨ opc = 6 ∨ opc = 7) →
    step s = .next
      { s with faultCause := some .invalidComboOperand, faultIp := some s.pc, status := .faulted }

/-- 60_exceptions.md R82: the fault record holds the pc at the start of the faulting step, the index of the opcode
cell, and the offending cells can be read back from the tape there. -/
def Obligations.TheFaultRecordPointsAtTheReservedPair : Prop :=
  ∀ s t : State, step s = .next t → t.status = .faulted →
    t.faultIp = some s.pc ∧
    ∃ opc, cellAt s.pc t = some opc ∧ cellAt (s.pc + 1) t = some 7 ∧
      (opc = 0 ∨ opc = 2 ∨ opc = 5 ∨ opc = 6 ∨ opc = 7)

/-- What a raise leaves: the cause can only be InvalidComboOperand, and registers, pc, OUT and the tape are those of
the start of the step (60_exceptions.md sections 1 and 2; that the state before the fault is kept is the spec's
decision D8, the record's form D4). -/
def Obligations.ARaiseIsPrecise : Prop :=
  ∀ s t : State, step s = .next t → t.status = .faulted →
    t = { s with faultCause := some .invalidComboOperand, faultIp := some s.pc, status := .faulted }

/-- A machine whose tape holds no reserved pair at any index, even or odd, never faults (60_exceptions.md section 1:
DecodeError is raised only while decoding the instruction at pc, never by arithmetic). -/
def Obligations.TapesWithoutReservedPairsNeverFault : Prop :=
  ∀ s : State, NoReservedPair s.tape → s.status ≠ .faulted → ∀ k, SafeRun k s

/-! Launch, reset and what the host reads -/

/-- The launch makes the state of the table of 10_state.md section 7 from A0, B0, C0 and the tape, and a tape of odd
length is refused (70_reset_and_hazards.md sections 1 and 2; the launch is the spec's decision D2, the refusal its
decision D15, and the STATUS and fault record rows its D3 and D4). -/
def Obligations.LaunchMakesTheStateOfTheTable : Prop :=
  (∀ a0 b0 c0 tape, tape.length % 2 = 0 → launch a0 b0 c0 tape = .next
    { a := a0, b := b0, c := c0, pc := 0, out := [], status := .running, faultCause := none, faultIp := none,
      tape := tape }) ∧
  (∀ a0 b0 c0 tape, tape.length % 2 = 1 → launch a0 b0 c0 tape = .refused .oddTapeLength)

/-- The model's choice, not the spec's (assumptions 1 and 2): the state called reset is the launch with all three
registers 0 and the empty tape. -/
def Obligations.ResetIsTheEmptyLaunch : Prop :=
  launch 0 0 0 [] = .next State.reset ∧
  State.reset.pc = 0 ∧ State.reset.out = [] ∧ State.reset.status = .running ∧
  State.reset.faultCause = none ∧ State.reset.faultIp = none

/-- The host takes (OUT, (A, B, C)) as the result exactly at HALTED, and the same as diagnostics only at FAULTED, where
there is no result (40_execution_engine.md section 7, 60_exceptions.md section 2; the visibility after a fault is the
spec's decision D9). -/
def Obligations.TheResultIsReadOnlyAtAHalt : Prop :=
  ∀ (s : State) (r : List Cell × Nat × Nat × Nat),
    (s.result = some r ↔ s.status = .halted ∧ r = (s.out, s.a, s.b, s.c)) ∧
    (s.diagnostics = some r ↔ s.status = .faulted ∧ r = (s.out, s.a, s.b, s.c)) ∧
    ∀ cause ip, (s.faultReport = some (cause, ip) ↔
      s.status = .faulted ∧ s.faultCause = some cause ∧ s.faultIp = some ip)

/-- A runner with fuel n reports a halt (a fault) in exactly the state that a run of at most n steps reaches and that is
HALTED (FAULTED), keeps that answer with more fuel, reports out of fuel in exactly the state that n steps reach when it
is still RUNNING, and has no other answer (40_execution_engine.md section 7). -/
def Obligations.TheRunnerKeepsItsThreeOutcomesApart : Prop :=
  ∀ (n : Nat) (s t : State),
    (runWithFuel n s = .halted t ↔ t.status = .halted ∧ ∃ j, j ≤ n ∧ runFor j s = .next t) ∧
    (runWithFuel n s = .faulted t ↔ t.status = .faulted ∧ ∃ j, j ≤ n ∧ runFor j s = .next t) ∧
    (runWithFuel n s = .outOfFuel t ↔ t.status = .running ∧ runFor n s = .next t) ∧
    runWithFuel n s ≠ .stopped t ∧
    (runWithFuel n s = .halted t → ∀ m, runWithFuel (n + m) s = .halted t) ∧
    (runWithFuel n s = .faulted t → ∀ m, runWithFuel (n + m) s = .faulted t)

/-! Invariants -/

/-- Every step keeps the invariant: LEN even, pc at most max(LEN, 7), STATUS and the fault record in agreement with
each other and the tape (10_state.md sections 4 and 5, derived there). -/
def Obligations.EveryStepKeepsTheInvariant : Prop :=
  ∀ s t : State, Inv s → step s = .next t → Inv t

/-- The invariant holds after every well-formed launch and at the state called reset, which is the model's choice of a
launch (10_state.md section 7; assumptions 1 and 2). -/
def Obligations.LaunchHasTheInvariant : Prop :=
  (∀ a0 b0 c0 tape s, launch a0 b0 c0 tape = .next s → Inv s) ∧ Inv State.reset

/-- pc stays even over a step unless that step is a taken jnz with an odd literal (10_state.md section 5, derived
there; that such a jump goes on at the odd index is the spec's decision D5). -/
def Obligations.PcStaysEvenUnlessAnOddJumpIsTaken : Prop :=
  (∀ s t : State, s.pc % 2 = 0 → step s = .next t → (∀ k, takesJump s k → k.toNat % 2 = 0) → t.pc % 2 = 0) ∧
  (∀ s k, takesJump s k → k.toNat % 2 = 1 → step s = .next { s with pc := k.toNat })

/-- A tape all of whose jnz instructions at even indices have even literals keeps pc even, from any state with an even
pc and over any run (10_state.md section 5, derived there). -/
def Obligations.EvenJumpTapesKeepPcEven : Prop :=
  ∀ (k : Nat) (s t : State), EvenJumps s.tape → s.pc % 2 = 0 → runFor k s = .next t →
    t.pc % 2 = 0 ∧ EvenJumps t.tape

/-- Over every run A never increases, and from a launch no register exceeds its bound in bits (10_state.md section 1,
derived there). -/
def Obligations.RegistersStayWithinTheLaunchBits : Prop :=
  (∀ k s t, runFor k s = .next t → t.a ≤ s.a) ∧
  (∀ k a0 b0 c0 tape t, runFor k (State.launched a0 b0 c0 tape) = .next t →
    bl t.a ≤ bl a0 ∧ bl t.b ≤ launchBits a0 b0 c0 ∧ bl t.c ≤ max (bl a0) (bl c0))

/-- OUT only grows at its end, by one cell for each out executed and by nothing else (44_output.md, the notes on the
output sequencer, partly derived there; its unbounded capacity is the spec's decision D10). -/
def Obligations.OutGrowsByOneCellPerOutExecuted : Prop :=
  ∀ (k : Nat) (s t : State), runFor k s = .next t →
    ∃ emitted : List Cell, t.out = s.out ++ emitted ∧ emitted.length = outsExecuted k s

/-- Nothing in the machine depends on OUT: cells put before those OUT holds stay before them and change nothing else,
over any run (10_state.md section 3: no instruction reads OUT). -/
def Obligations.OutIsNeverRead : Prop :=
  ∀ (k : Nat) (o : List Cell) (s : State),
    runFor k (withEarlierOut o s) = mapNext (withEarlierOut o) (runFor k s)

/-! Termination, the variant of ODD_TARGET, and implementations of fixed width -/

/-- A taken jnz to its own index repeats for ever and the engine has no step limit (43_jump.md, the corner cases of the
target, derived there; that there is no limit is the spec's decision D11). -/
def Obligations.AJumpToItselfNeverEnds : Prop :=
  ∀ (s : State) (k : Cell), takesJump s k → k.toNat = s.pc → ∀ n, runFor n s = .next s

/-- The conditional termination of 70_reset_and_hazards.md section 4, made exact there: a tape that is a body of
instructions with no jnz, every adv with a literal, the literals' sum k' at least 1, followed by jnz 0, is run p times
with A replaced by shr(A, k') each time, and halts with A = 0 and pc = LEN. -/
def Obligations.ShrinkingLoopsHalt : Prop :=
  ∀ (a0 b0 c0 : Nat) (tape : Memory) (body : List Instr),
    tape.length % 2 = 0 → decodeTape tape = body.map .ok ++ [.ok (.jnz 0)] →
    (∀ i ∈ body, shrinkBody i = true) → 1 ≤ bodyShift body →
    (∀ j, j ≤ passes a0 (bodyShift body) →
      ∃ t, runFor (j * (tape.length / 2)) (State.launched a0 b0 c0 tape) = .next t ∧
        t.status = .running ∧ t.a = shr a0 (j * bodyShift body) ∧
        t.pc = if j = passes a0 (bodyShift body) then tape.length else 0) ∧
    ∃ t, runFor (passes a0 (bodyShift body) * (tape.length / 2) + 1) (State.launched a0 b0 c0 tape) = .next t ∧
      t.status = .halted ∧ t.a = 0 ∧ t.pc = tape.length

/-- The switch ODD_TARGET: at its default the step is the architecture's; in the stricter variant pc stays even
unconditionally, a step that does not jump to an odd index is the architecture's, and one that would is a fault of the
variant's own (the spec's decision D5; the fault's form is assumption 6). -/
def Obligations.TheStrictVariantKeepsPcEven : Prop :=
  (∀ s, stepUnder Config.oddTarget s = step s) ∧
  (∀ s t, s.pc % 2 = 0 → stepUnder .faults s = .next t → t.pc % 2 = 0 ∧ step s = .next t) ∧
  (∀ s k, takesJump s k → k.toNat % 2 = 1 → stepUnder .faults s = .fault (.oddJumpTarget k.toNat)) ∧
  (∀ s, (∀ k, takesJump s k → k.toNat % 2 = 0) → stepUnder .faults s = step s)

/-- One step of an implementation with W-bit registers, W at least 3, whose shifter gives 0 for every amount of W or
more, is the architecture's step (10_state.md section 1, derived there). -/
def Obligations.FixedWidthStepIsTheArchitecturesStep : Prop :=
  ∀ (w : Nat) (x : FixedState w), 3 ≤ w → fixedAnswer (fixedStep x) = step x.toState

/-- An implementation with W-bit registers is indistinguishable from the architecture on every launch with M <= W, and
refuses every other launch of an even tape (10_state.md section 1, derived there). Where A0, B0 or C0 does not fit in
W bits the refusal is the spec's decision D12. Where they fit and only W is below 3, the three bits of a cell that M
counts, the spec gives no refusal: that one is the model's choice (assumption 7). -/
def Obligations.FixedWidthMachinesAreIndistinguishable : Prop :=
  ∀ (w a0 b0 c0 : Nat) (tape : Memory), tape.length % 2 = 0 →
    (w < launchBits a0 b0 c0 → fixedLaunch w a0 b0 c0 tape = .refused .launchDoesNotFit) ∧
    (launchBits a0 b0 c0 ≤ w → ∃ x, fixedLaunch w a0 b0 c0 tape = .next x ∧
      launch a0 b0 c0 tape = .next x.toState ∧
      ∀ k, fixedAnswer (fixedRun k x) = runFor k (State.launched a0 b0 c0 tape))
end

