-- ==== Sys2Proof/Laws/Arith.lean ====
section
/-! SUPPORT. The arithmetic primitives against their definitions in 00_scope.md. -/

namespace Sys2Proof.Machine

/-- The shift is the floor division of 00_scope.md R10. -/
theorem shr_eq_div (v n : Nat) : shr v n = v / 2 ^ n := Nat.shiftRight_eq_div_pow v n

/-- A shift never increases a value (00_scope.md R10). -/
theorem shr_le (v n : Nat) : shr v n ≤ v := by
  rw [shr_eq_div]
  exact Nat.div_le_self _ _

/-- `mod8` is the remainder by 8 (00_scope.md R12). -/
theorem mod8_toNat (v : Nat) : (mod8 v).toNat = v % 8 := by simp [mod8]

/-- The defining property of the bit length: bl(v) is the least k with v < 2^k (00_scope.md section 6). -/
theorem bl_le_iff (v k : Nat) : bl v ≤ k ↔ v < 2 ^ k := by
  unfold bl
  split
  · subst_vars; simp
  · rename_i h
    rw [← Nat.log2_lt h]
    omega

end Sys2Proof.Machine
end

