-- ==== Sys2Proof/Laws/Decode.lean ====
section
/-! SUPPORT. What the decoder's shared parts can answer. -/

namespace Sys2Proof

/-- `comboForm` answers a form exactly for 0..6 (30_encoding.md R45). -/
theorem comboForm_eq_none_iff (o : Nat) : comboForm o = none ↔ 7 ≤ o := by
  unfold comboForm
  split <;> simp_all
  omega

/-- `withCombo` answers an instruction exactly for a combo form of the operand (30_encoding.md R47). -/
theorem withCombo_eq_ok_iff (make : Combo → Instr) (o : Nat) (i : Instr) :
    withCombo make o = .ok i ↔ ∃ f, comboForm o = some f ∧ i = make f := by
  have h := comboForm_eq_none_iff o
  unfold withCombo
  cases hf : comboForm o with
  | none => split <;> simp
  | some f =>
    have : ¬ 7 < o := fun h7 => by simp [hf] at h; omega
    simp [this, eq_comm]

/-- A literal operand below 8 is always accepted, as itself (30_encoding.md R44). -/
theorem withLiteral_of_lt (make : Cell → Instr) (o : Nat) (h : o < 8) :
    withLiteral make o = .ok (make (BitVec.ofNat 3 o)) := by
  simp [withLiteral, Nat.not_lt.mpr (Nat.lt_succ_iff.mp h)]

/-- An ignored operand below 8 is always accepted and dropped (30_encoding.md R50). -/
theorem withIgnored_of_lt (i : Instr) (o : Nat) (h : o < 8) : withIgnored i o = .ok i := by
  simp [withIgnored, Nat.not_lt.mpr (Nat.lt_succ_iff.mp h)]

/-- The word of opcode_table.json holds its two cells (30_encoding.md R42). -/
theorem wordCells_encodeWord (i : Instr) : wordCells (encodeWord i) = encode i := by
  have h1 := (encode i).1.isLt
  have h2 := (encode i).2.isLt
  refine Prod.ext (BitVec.eq_of_toNat_eq ?_) (BitVec.eq_of_toNat_eq ?_) <;>
    simp only [wordCells, encodeWord, BitVec.toNat_ofNat] <;> omega

/-- What `decodeTableWord` answers: the decoder's reading of the word's two cells. -/
theorem decodeTableWord_eq_some_iff (n w : Nat) (i : Instr) :
    decodeTableWord n w = some i ↔
      w < 64 ∧ decodeCells (wordCells w).1 (wordCells w).2 = .ok i := by
  unfold decodeTableWord
  by_cases hw : w < 64
  · rw [if_pos hw]
    split <;> simp_all
  · simp [hw]

end Sys2Proof
end

