-- ==== Sys2Proof/Laws/State.lean ====
section
/-! SUPPORT. What every field is after every update of the state: one lemma per field and update. -/

namespace Sys2Proof.Machine

/-! `pc <- pc + 2` (40_execution_engine.md R62). -/

@[simp] theorem advance_a (s : State) : (advance s).a = s.a := rfl
@[simp] theorem advance_b (s : State) : (advance s).b = s.b := rfl
@[simp] theorem advance_c (s : State) : (advance s).c = s.c := rfl
@[simp] theorem advance_pc (s : State) : (advance s).pc = s.pc + 2 := rfl
@[simp] theorem advance_out (s : State) : (advance s).out = s.out := rfl
@[simp] theorem advance_status (s : State) : (advance s).status = s.status := rfl
@[simp] theorem advance_faultCause (s : State) : (advance s).faultCause = s.faultCause := rfl
@[simp] theorem advance_faultIp (s : State) : (advance s).faultIp = s.faultIp := rfl
@[simp] theorem advance_tape (s : State) : (advance s).tape = s.tape := rfl

/-! The absolute jump (43_jump.md R73). -/

@[simp] theorem jumpTo_a (n : Nat) (s : State) : (jumpTo n s).a = s.a := rfl
@[simp] theorem jumpTo_b (n : Nat) (s : State) : (jumpTo n s).b = s.b := rfl
@[simp] theorem jumpTo_c (n : Nat) (s : State) : (jumpTo n s).c = s.c := rfl
@[simp] theorem jumpTo_pc (n : Nat) (s : State) : (jumpTo n s).pc = n := rfl
@[simp] theorem jumpTo_out (n : Nat) (s : State) : (jumpTo n s).out = s.out := rfl
@[simp] theorem jumpTo_status (n : Nat) (s : State) : (jumpTo n s).status = s.status := rfl
@[simp] theorem jumpTo_faultCause (n : Nat) (s : State) : (jumpTo n s).faultCause = s.faultCause := rfl
@[simp] theorem jumpTo_faultIp (n : Nat) (s : State) : (jumpTo n s).faultIp = s.faultIp := rfl
@[simp] theorem jumpTo_tape (n : Nat) (s : State) : (jumpTo n s).tape = s.tape := rfl

/-! `Emit` (44_output.md R78). -/

@[simp] theorem emit_a (v : Cell) (s : State) : (emit v s).a = s.a := rfl
@[simp] theorem emit_b (v : Cell) (s : State) : (emit v s).b = s.b := rfl
@[simp] theorem emit_c (v : Cell) (s : State) : (emit v s).c = s.c := rfl
@[simp] theorem emit_pc (v : Cell) (s : State) : (emit v s).pc = s.pc := rfl
@[simp] theorem emit_out (v : Cell) (s : State) : (emit v s).out = s.out ++ [v] := rfl
@[simp] theorem emit_status (v : Cell) (s : State) : (emit v s).status = s.status := rfl
@[simp] theorem emit_faultCause (v : Cell) (s : State) : (emit v s).faultCause = s.faultCause := rfl
@[simp] theorem emit_faultIp (v : Cell) (s : State) : (emit v s).faultIp = s.faultIp := rfl
@[simp] theorem emit_tape (v : Cell) (s : State) : (emit v s).tape = s.tape := rfl

/-! The halt transition (40_execution_engine.md R54). -/

@[simp] theorem halt_a (s : State) : (halt s).a = s.a := rfl
@[simp] theorem halt_b (s : State) : (halt s).b = s.b := rfl
@[simp] theorem halt_c (s : State) : (halt s).c = s.c := rfl
@[simp] theorem halt_pc (s : State) : (halt s).pc = s.pc := rfl
@[simp] theorem halt_out (s : State) : (halt s).out = s.out := rfl
@[simp] theorem halt_status (s : State) : (halt s).status = .halted := rfl
@[simp] theorem halt_faultCause (s : State) : (halt s).faultCause = s.faultCause := rfl
@[simp] theorem halt_faultIp (s : State) : (halt s).faultIp = s.faultIp := rfl
@[simp] theorem halt_tape (s : State) : (halt s).tape = s.tape := rfl

/-! The raise (60_exceptions.md R83). -/

@[simp] theorem raiseDecodeError_a (d : DecodeCause) (n : Nat) (s : State) : (raiseDecodeError d n s).a = s.a := rfl
@[simp] theorem raiseDecodeError_b (d : DecodeCause) (n : Nat) (s : State) : (raiseDecodeError d n s).b = s.b := rfl
@[simp] theorem raiseDecodeError_c (d : DecodeCause) (n : Nat) (s : State) : (raiseDecodeError d n s).c = s.c := rfl
@[simp] theorem raiseDecodeError_pc (d : DecodeCause) (n : Nat) (s : State) : (raiseDecodeError d n s).pc = s.pc := rfl
@[simp] theorem raiseDecodeError_out (d : DecodeCause) (n : Nat) (s : State) : (raiseDecodeError d n s).out = s.out := rfl
@[simp] theorem raiseDecodeError_status (d : DecodeCause) (n : Nat) (s : State) : (raiseDecodeError d n s).status = .faulted := rfl
@[simp] theorem raiseDecodeError_faultCause (d : DecodeCause) (n : Nat) (s : State) : (raiseDecodeError d n s).faultCause = some d := rfl
@[simp] theorem raiseDecodeError_faultIp (d : DecodeCause) (n : Nat) (s : State) : (raiseDecodeError d n s).faultIp = some n := rfl
@[simp] theorem raiseDecodeError_tape (d : DecodeCause) (n : Nat) (s : State) : (raiseDecodeError d n s).tape = s.tape := rfl

/-! The launch (10_state.md R24). -/

@[simp] theorem State.launched_a (x y z : Nat) (m : Memory) : (State.launched x y z m).a = x := rfl
@[simp] theorem State.launched_b (x y z : Nat) (m : Memory) : (State.launched x y z m).b = y := rfl
@[simp] theorem State.launched_c (x y z : Nat) (m : Memory) : (State.launched x y z m).c = z := rfl
@[simp] theorem State.launched_pc (x y z : Nat) (m : Memory) : (State.launched x y z m).pc = 0 := rfl
@[simp] theorem State.launched_out (x y z : Nat) (m : Memory) : (State.launched x y z m).out = [] := rfl
@[simp] theorem State.launched_status (x y z : Nat) (m : Memory) : (State.launched x y z m).status = .running := rfl
@[simp] theorem State.launched_faultCause (x y z : Nat) (m : Memory) : (State.launched x y z m).faultCause = none := rfl
@[simp] theorem State.launched_faultIp (x y z : Nat) (m : Memory) : (State.launched x y z m).faultIp = none := rfl
@[simp] theorem State.launched_tape (x y z : Nat) (m : Memory) : (State.launched x y z m).tape = m := rfl

/-! Writing one register (10_state.md R13). -/

@[simp] theorem writeReg_A_a (v : Nat) (s : State) : (writeReg .A v s).a = v := rfl
@[simp] theorem writeReg_A_b (v : Nat) (s : State) : (writeReg .A v s).b = s.b := rfl
@[simp] theorem writeReg_A_c (v : Nat) (s : State) : (writeReg .A v s).c = s.c := rfl
@[simp] theorem writeReg_B_a (v : Nat) (s : State) : (writeReg .B v s).a = s.a := rfl
@[simp] theorem writeReg_B_b (v : Nat) (s : State) : (writeReg .B v s).b = v := rfl
@[simp] theorem writeReg_B_c (v : Nat) (s : State) : (writeReg .B v s).c = s.c := rfl
@[simp] theorem writeReg_C_a (v : Nat) (s : State) : (writeReg .C v s).a = s.a := rfl
@[simp] theorem writeReg_C_b (v : Nat) (s : State) : (writeReg .C v s).b = s.b := rfl
@[simp] theorem writeReg_C_c (v : Nat) (s : State) : (writeReg .C v s).c = v := rfl
@[simp] theorem writeReg_pc (r : Reg) (v : Nat) (s : State) : (writeReg r v s).pc = s.pc := by cases r <;> rfl
@[simp] theorem writeReg_out (r : Reg) (v : Nat) (s : State) : (writeReg r v s).out = s.out := by cases r <;> rfl
@[simp] theorem writeReg_status (r : Reg) (v : Nat) (s : State) : (writeReg r v s).status = s.status := by cases r <;> rfl
@[simp] theorem writeReg_faultCause (r : Reg) (v : Nat) (s : State) : (writeReg r v s).faultCause = s.faultCause := by cases r <;> rfl
@[simp] theorem writeReg_faultIp (r : Reg) (v : Nat) (s : State) : (writeReg r v s).faultIp = s.faultIp := by cases r <;> rfl
@[simp] theorem writeReg_tape (r : Reg) (v : Nat) (s : State) : (writeReg r v s).tape = s.tape := by cases r <;> rfl
@[simp] theorem readReg_A (s : State) : readReg .A s = s.a := rfl
@[simp] theorem readReg_B (s : State) : readReg .B s = s.b := rfl
@[simp] theorem readReg_C (s : State) : readReg .C s = s.c := rfl

/-- A register read after a write: the written one has the value, the others are as they were (10_state.md R13). -/
theorem readReg_writeReg (q r : Reg) (v : Nat) (s : State) :
    readReg q (writeReg r v s) = if q = r then v else readReg q s := by
  cases q <;> cases r <;> simp

end Sys2Proof.Machine
end

