-- ==== Sys2Proof/Laws/Ops.lean ====
section
/-! SUPPORT. What the fetch and the load of a pair can do. -/

namespace Sys2Proof.Machine

/-- The halting test: no pair is fetched exactly when `pc + 1 >= LEN` (40_execution_engine.md R54). -/
theorem fetchPair_eq_none_iff (tape : Memory) (pc : Nat) :
    fetchPair tape pc = none ↔ tape.length ≤ pc + 1 := by
  unfold fetchPair
  split <;> simp_all

/-- The fetch reads the cells at pc and pc + 1 (40_execution_engine.md R55). -/
theorem fetchPair_eq_some_iff (tape : Memory) (pc : Nat) (p : Cell × Cell) :
    fetchPair tape pc = some p ↔ tape[pc]? = some p.1 ∧ tape[pc + 1]? = some p.2 := by
  unfold fetchPair
  split
  · rename_i h
    simp [List.getElem?_eq_none h]
  · rename_i h
    rw [List.getElem?_eq_getElem (by omega), List.getElem?_eq_getElem (by omega)]
    obtain ⟨x, y⟩ := p
    simp

/-- What a state decodes depends on the tape and pc alone (40_execution_engine.md R56). -/
theorem fetchDecode_congr {s t : State} (htape : t.tape = s.tape) (hpc : t.pc = s.pc) :
    fetchDecode t = fetchDecode s := by
  simp [fetchDecode, fetch, htape, hpc]

/-- Nothing decodes exactly when the halting test fires (40_execution_engine.md R54). -/
theorem fetchDecode_eq_none_iff (s : State) : fetchDecode s = none ↔ s.tape.length ≤ s.pc + 1 := by
  simp [fetchDecode, fetch, fetchPair_eq_none_iff]

/-- A decoded pair lies inside the tape (20_memory.md R33). -/
theorem lt_of_fetchDecode {s : State} {d : Decoded} (h : fetchDecode s = some d) :
    s.pc + 1 < s.tape.length := by
  by_contra hlt
  rw [(fetchDecode_eq_none_iff s).mpr (by omega)] at h
  cases h

/-- The length of a loaded tape: it stays where it reaches past the pair, and is even otherwise. -/
theorem length_placePair (tape : Memory) (pc : Nat) (p : Cell × Cell) :
    (placePair tape pc p).length = max tape.length (pc + 2 + pc % 2) := by
  simp [placePair]
  omega

/-- Loading a pair keeps the form of the tape (70_reset_and_hazards.md R97(b)). -/
theorem placePair_wf (tape : Memory) (pc : Nat) (p : Cell × Cell) (h : tape.wf = true) :
    (placePair tape pc p).wf = true := by
  simp only [Memory.wf, beq_iff_eq, length_placePair] at *
  omega

/-- The pair is fetched where it was loaded. -/
theorem fetchPair_placePair (tape : Memory) (pc : Nat) (p : Cell × Cell) :
    fetchPair (placePair tape pc p) pc = some p := by
  have hlen := length_placePair tape pc p
  rw [fetchPair_eq_some_iff]
  simp only [placePair] at *
  constructor
  · rw [List.getElem?_set_ne (by omega), List.getElem?_set_self (by simp at *; omega)]
  · rw [List.getElem?_set_self (by simp at *; omega)]

/-- Loading a pair leaves every other cell of the tape. -/
theorem getElem?_placePair_ne (tape : Memory) (pc addr : Nat) (p : Cell × Cell)
    (h : addr < tape.length) (h0 : addr ≠ pc) (h1 : addr ≠ pc + 1) :
    (placePair tape pc p)[addr]? = tape[addr]? := by
  simp only [placePair]
  rw [List.getElem?_set_ne (by omega), List.getElem?_set_ne (by omega), List.getElem?_append_left h]

/-- The tape right after reset has the form of a well-formed launch. -/
theorem reset_tape_wf : State.reset.tape.wf = true := by decide

end Sys2Proof.Machine
end

