-- ==== Sys2Proof/Laws/PerInstr.lean ====
section
/-! SUPPORT. Statements about every instruction as syntax, one lemma per constructor of `Instr`. -/

namespace Sys2Proof.Laws

/-- The row of the opcode map (30_encoding.md R46) an instruction belongs to. -/
def rowOf : Instr → Nat

  | .adv _ => 0
  | .bxl _ => 1
  | .bst _ => 2
  | .jnz _ => 3
  | .bxc => 4
  | .out _ => 5
  | .bdv _ => 6
  | .cdv _ => 7

/-- The word of an instruction is a 6-bit word of its row of opcode_table.json: under the mask 56 it is
`8 * opcode` (30_encoding.md R42). -/
def EncodingFitsRow.Statement (i : Instr) : Prop :=
  encodeWord i < 64 ∧ encodeWord i / 8 = rowOf i

/-- A word made of two cells has the first cell in its upper three bits (30_encoding.md R42). -/
theorem encodeWord_of_cells (i : Instr) (n : Nat) (h : (encode i).1.toNat = n) :
    encodeWord i < 64 ∧ encodeWord i / 8 = n := by
  have := (encode i).2.isLt
  unfold encodeWord
  omega

theorem EncodingFitsRow.adv (f : Combo) : EncodingFitsRow.Statement (.adv f) :=
  encodeWord_of_cells _ 0 rfl
theorem EncodingFitsRow.bxl (k : Cell) : EncodingFitsRow.Statement (.bxl k) :=
  encodeWord_of_cells _ 1 rfl
theorem EncodingFitsRow.bst (f : Combo) : EncodingFitsRow.Statement (.bst f) :=
  encodeWord_of_cells _ 2 rfl
theorem EncodingFitsRow.jnz (k : Cell) : EncodingFitsRow.Statement (.jnz k) :=
  encodeWord_of_cells _ 3 rfl
theorem EncodingFitsRow.bxc : EncodingFitsRow.Statement .bxc :=
  encodeWord_of_cells _ 4 rfl
theorem EncodingFitsRow.out (f : Combo) : EncodingFitsRow.Statement (.out f) :=
  encodeWord_of_cells _ 5 rfl
theorem EncodingFitsRow.bdv (f : Combo) : EncodingFitsRow.Statement (.bdv f) :=
  encodeWord_of_cells _ 6 rfl
theorem EncodingFitsRow.cdv (f : Combo) : EncodingFitsRow.Statement (.cdv f) :=
  encodeWord_of_cells _ 7 rfl

end Sys2Proof.Laws
end

