-- ==== Sys2Proof/Laws/Step.lean ====
section
/-! SUPPORT. What an instruction and a step can do, said once: later proofs cite these and do not unfold `exec` or
`step`. -/

namespace Sys2Proof.Machine

/-- Every instruction answers a next state, and it is one of these (40_execution_engine.md R61). -/
theorem exec_cases {i : Instr} {s t : State} (h : exec i s = .next t) :
    (∃ f, i = .adv f ∧ t = divideInto .A f s) ∨
    (∃ k, i = .bxl k ∧ t = setB (xorNat s.b (literalValue k)) s) ∨
    (∃ f, i = .bst f ∧ t = setB (mod8 (comboValue f s)).toNat s) ∨
    (∃ k, i = .jnz k ∧ t = if jumpCondition s then jumpTo (literalValue k) s else advance s) ∨
    (i = .bxc ∧ t = setB (xorNat s.b s.c) s) ∨
    (∃ f, i = .out f ∧ t = advance (emit (mod8 (comboValue f s)) s)) ∨
    (∃ f, i = .bdv f ∧ t = divideInto .B f s) ∨
    (∃ f, i = .cdv f ∧ t = divideInto .C f s) := by
  cases i <;> cases h <;> simp

/-- What no instruction changes: the tape, STATUS and the fault record (20_memory.md R27, 10_state.md R19, R20). -/
theorem exec_keeps_control {i : Instr} {s t : State} (h : exec i s = .next t) :
    t.tape = s.tape ∧ t.status = s.status ∧ t.faultCause = s.faultCause ∧ t.faultIp = s.faultIp := by
  rcases exec_cases h with ⟨_, -, rfl⟩ | ⟨_, -, rfl⟩ | ⟨_, -, rfl⟩ | ⟨_, -, rfl⟩ | ⟨-, rfl⟩ | ⟨_, -, rfl⟩ |
    ⟨_, -, rfl⟩ | ⟨_, -, rfl⟩
  case inr.inr.inr.inl => split <;> simp
  all_goals simp [divideInto, setB]

/-- Every next state of a step is the halt transition, a raise or an instruction's (40_execution_engine.md R53). -/
theorem step_cases {s t : State} (h : step s = .next t) :
    s.status = .running ∧
      ((fetchDecode s = none ∧ t = halt s) ∨
        (∃ cause, fetchDecode s = some (.rejected cause) ∧ t = raiseDecodeError cause s.pc s) ∨
        ∃ i, fetchDecode s = some (.ok i) ∧ exec i s = .next t) := by
  unfold step at h
  split at h
  · cases h
  · cases h
  · rename_i hrun
    refine ⟨hrun, ?_⟩
    split at h <;> rename_i hd <;> rw [hd]
    · cases h; simp
    · cases h; simp
    · simp [h]

/-- A running engine executes the pair it fetches when that decodes (40_execution_engine.md R61). -/
theorem step_of_ok {s : State} {p : Cell × Cell} {i : Instr} (hr : s.status = .running) (hf : fetch s = some p)
    (hd : decodeCells p.1 p.2 = .ok i) : step s = exec i s := by
  simp [step, hr, fetchDecode, hf, hd]

/-- A running engine raises a DecodeError when the pair it fetches is rejected (40_execution_engine.md R61). -/
theorem step_of_rejected {s : State} {p : Cell × Cell} {cause : DecodeCause} (hr : s.status = .running)
    (hf : fetch s = some p) (hd : decodeCells p.1 p.2 = .rejected cause) :
    step s = .next (raiseDecodeError cause s.pc s) := by
  simp [step, hr, fetchDecode, hf, hd]

/-- The word placed by `withFetchWord` is the one the next step runs: what the host's question about each row of the
opcode table rests on. -/
theorem step_withFetchWord {n w : Nat} {i : Instr} (s : State) (h : decodeTableWord n w = some i) :
    step (s.withFetchWord n w) = exec i (s.withFetchWord n w) := by
  have hd : fetchDecode (s.withFetchWord n w) = some (.ok i) := by
    simp [fetchDecode, fetch, State.withFetchWord, fetchPair_placePair,
      ((decodeTableWord_eq_some_iff n w i).mp h).2]
  have hr : (s.withFetchWord n w).status = .running := rfl
  simp [step, hr, hd]

end Sys2Proof.Machine
end

