-- ==== Sys2Proof/Laws/Run.lean ====
section
/-! SUPPORT. The run through the host's interface, one step at a time: inductions over a run cite these. -/

namespace Sys2Proof.Machine

/-- What runs on from an answer. -/
def continueRun (k : Nat) : StepResult → StepResult
  | .next t => runFor k t
  | .fault r => .fault r
  | .refused r => .refused r

@[simp] theorem runFor_zero (s : State) : runFor 0 s = .next s := rfl

/-- The host's run, when its first step's answer is known. -/
theorem coreRun_succ_of_next (M : Host.Core) (k : Nat) (s u : M.State) (h : M.step s = .next u) :
    M.run (k + 1) s = M.run k u := by
  rw [Host.Core.run, h]

theorem coreRun_succ_of_fault (M : Host.Core) (k : Nat) (s : M.State) (r : M.Fault) (h : M.step s = .fault r) :
    M.run (k + 1) s = .fault r := by
  rw [Host.Core.run, h]

theorem coreRun_succ_of_refused (M : Host.Core) (k : Nat) (s : M.State) (r : M.Refusal)
    (h : M.step s = .refused r) : M.run (k + 1) s = .refused r := by
  rw [Host.Core.run, h]

theorem runFor_succ (k : Nat) (s : State) : runFor (k + 1) s = continueRun k (step s) := by
  cases hs : step s with
  | next u => exact coreRun_succ_of_next Sys2Proof.core k s u hs
  | fault r => exact coreRun_succ_of_fault Sys2Proof.core k s r hs
  | refused r => exact coreRun_succ_of_refused Sys2Proof.core k s r hs

/-- A run of k + 1 steps that answers a next state makes a first step. -/
theorem runFor_succ_eq_next_iff (k : Nat) (s t : State) :
    runFor (k + 1) s = .next t ↔ ∃ u, step s = .next u ∧ runFor k u = .next t := by
  rw [runFor_succ]
  cases step s <;> simp [continueRun]

/-- A run is a run of a run. -/
theorem runFor_add (j k : Nat) (s : State) : runFor (j + k) s = continueRun k (runFor j s) := by
  induction j generalizing s with
  | zero => simp [continueRun]
  | succ j ih =>
    rw [Nat.succ_add, runFor_succ, runFor_succ]
    cases step s with
    | next t => exact ih t
    | fault r => rfl
    | refused r => rfl

/-! The runner with fuel, by STATUS (40_execution_engine.md R64) -/

theorem runWithFuel_of_halted (n : Nat) {s : State} (h : s.status = .halted) : runWithFuel n s = .halted s := by
  cases n <;> simp [runWithFuel, h]

theorem runWithFuel_of_faulted (n : Nat) {s : State} (h : s.status = .faulted) : runWithFuel n s = .faulted s := by
  cases n <;> simp [runWithFuel, h]

theorem runWithFuel_zero_of_running {s : State} (h : s.status = .running) : runWithFuel 0 s = .outOfFuel s := by
  simp [runWithFuel, h]

/-- A running machine spends one unit of fuel on each step. -/
theorem runWithFuel_succ_of_next (n : Nat) {s u : State} (h : step s = .next u) :
    runWithFuel (n + 1) s = runWithFuel n u := by
  simp [runWithFuel, (step_cases h).1, h]

end Sys2Proof.Machine
end

