-- ==== Sys2Proof/Machine/Listing.lean ====
section
/-! DEFINITION. The assembler syntax in which the spec writes a tape down (30_encoding.md R52, the spec's decision
D16). It has no effect on the machine; disassembly as a function of the source's software is out of scope
(00_scope.md R3(b)). -/

namespace Sys2Proof.Machine

/-- The mnemonic of an opcode cell (30_encoding.md R46, R52); none above 7. -/
def mnemonic : Nat → Option String
  | 0 => some "adv"
  | 1 => some "bxl"
  | 2 => some "bst"
  | 3 => some "jnz"
  | 4 => some "bxc"
  | 5 => some "out"
  | 6 => some "bdv"
  | 7 => some "cdv"
  | _ => none

/-- The spelling of a literal or ignored operand: its digit (30_encoding.md R52). -/
def digitText : Nat → Option String
  | 0 => some "0"
  | 1 => some "1"
  | 2 => some "2"
  | 3 => some "3"
  | 4 => some "4"
  | 5 => some "5"
  | 6 => some "6"
  | 7 => some "7"
  | _ => none

/-- The spelling of a combo operand: 0..3 as its digit, 4 to 6 as the register, 7 as `?7` (30_encoding.md R52). -/
def comboText : Nat → Option String
  | 4 => some "A"
  | 5 => some "B"
  | 6 => some "C"
  | 7 => some "?7"
  | o => digitText o

/-- A pair as mnemonic and operand, the two words of a line of assembly (30_encoding.md R52). -/
def assembly (opc opd : Cell) : Option (String × String) :=
  match opc.toNat with
  | 1 => (mnemonic 1).bind fun m => (digitText opd.toNat).map fun o => (m, o)
  | 3 => (mnemonic 3).bind fun m => (digitText opd.toNat).map fun o => (m, o)
  | 4 => (mnemonic 4).bind fun m => (digitText opd.toNat).map fun o => (m, o)
  | n => (mnemonic n).bind fun m => (comboText opd.toNat).map fun o => (m, o)

/-- A listing: the tape index before each instruction, from an index on (30_encoding.md R52). -/
def listingFrom : Nat → List Cell → List (Nat × Option (String × String))
  | at0, opc :: opd :: rest => (at0, assembly opc opd) :: listingFrom (at0 + 2) rest
  | _, [_] => []
  | _, [] => []

end Sys2Proof.Machine
end

