-- ==== Sys2Proof/Tests/Slice0.lean ====
section
/-! SUPPORT. Tests. Expected values are those of 95_test_vectors.md (named in each comment) or written out from the
encoding of 30_encoding.md. Each `witness_` theorem shows a state and operands that meet the hypotheses of the
statement it names. -/

namespace Sys2Proof.Tests

open Sys2Proof Sys2Proof.Machine

/-- A running machine with the given registers, pc and tape. -/
def at' (a b c pc : Nat) (tape : List Cell) : State := { State.launched a b c tape with pc := pc }

/-! Well-formedness: each check refuses an ill-formed term -/

theorem test_combo_literal_4_ill_formed : (Combo.lit 4).wf = false := by decide
theorem test_combo_literal_3_well_formed : (Combo.lit 3).wf = true := by decide
theorem test_adv_ill_formed : (Instr.adv (.lit 4)).wf = false := by decide
theorem test_bst_ill_formed : (Instr.bst (.lit 5)).wf = false := by decide
theorem test_out_ill_formed : (Instr.out (.lit 6)).wf = false := by decide
theorem test_bdv_ill_formed : (Instr.bdv (.lit 7)).wf = false := by decide
theorem test_cdv_ill_formed : (Instr.cdv (.lit 4)).wf = false := by decide

/-! Decoding: words written out from the patterns of 30_encoding.md R46, opcode bits first -/

theorem test_decode_adv_C : decodeTableWord 8 0b000110 = some (.adv (.reg .C)) := by decide
theorem test_decode_bxl_7 : decodeTableWord 8 0b001111 = some (.bxl 7) := by decide
theorem test_decode_bst_3 : decodeTableWord 8 0b010011 = some (.bst (.lit 3)) := by decide
theorem test_decode_jnz_4 : decodeTableWord 8 0b011100 = some (.jnz 4) := by decide
theorem test_decode_bxc_7 : decodeTableWord 8 0b100111 = some .bxc := by decide
theorem test_decode_out_A : decodeTableWord 8 0b101100 = some (.out (.reg .A)) := by decide
theorem test_decode_bdv_B : decodeTableWord 8 0b110101 = some (.bdv (.reg .B)) := by decide
theorem test_decode_cdv_0 : decodeTableWord 8 0b111000 = some (.cdv (.lit 0)) := by decide
theorem test_decode_reserved_adv : decodeTableWord 8 0b000111 = none := by decide
theorem test_decode_past_six_bits : decodeTableWord 8 0b1000000 = none := by decide
theorem test_decode_wide_opcode : decode 8 9 = .rejected .invalidOpcode := by decide
theorem test_decode_wide_operand_of_bxc : decode 4 8 = .rejected .invalidOperandCell := by decide
/-- 60_exceptions.md R81. -/
theorem test_cause_codes :
    [DecodeCause.invalidComboOperand, .invalidOpcode, .invalidOperandCell].map DecodeCause.code = [1, 2, 3] := by
  decide

/-! The instructions, each by one step of a two-cell tape (95_test_vectors.md section 2) -/

/-- V8: a value above 64 bits. -/
theorem test_adv_above_64_bits :
    step (at' 1267650600228229401496703205381 0 0 0 [0, 3]) =
      .next (at' 158456325028528675187087900672 0 0 2 [0, 3]) := rfl
/-- V9: a shift amount far above any machine width. -/
theorem test_adv_huge_amount :
    step (at' 5 (10 ^ 30) 0 0 [0, 5]) = .next (at' 0 (10 ^ 30) 0 2 [0, 5]) := rfl
/-- V13: the old B is the shift amount. -/
theorem test_bdv_B : step (at' 1000 9 0 0 [6, 5]) = .next (at' 1000 1 0 2 [6, 5]) := rfl
/-- V14. -/
theorem test_bdv_C : step (at' 1000 77 5 0 [6, 6]) = .next (at' 1000 31 5 2 [6, 6]) := rfl
/-- V18. -/
theorem test_cdv_B : step (at' 13 2 0 0 [7, 5]) = .next (at' 13 2 3 2 [7, 5]) := rfl
/-- V19: the old C is the shift amount. -/
theorem test_cdv_C : step (at' 13 0 3 0 [7, 6]) = .next (at' 13 0 1 2 [7, 6]) := rfl
/-- S4: the source's fixture. -/
theorem test_bxl_7 : step (at' 0 29 0 0 [1, 7]) = .next (at' 0 26 0 2 [1, 7]) := rfl
/-- V23: high bits kept. -/
theorem test_bxl_keeps_high_bits :
    step (at' 0 1180591620717411303424 0 0 [1, 5]) = .next (at' 0 1180591620717411303429 0 2 [1, 5]) := rfl
/-- V26: exact reduction of a value above 64 bits. -/
theorem test_bst_A :
    step (at' 18446744073709551629 99 0 0 [2, 4]) = .next (at' 18446744073709551629 5 0 2 [2, 4]) := rfl
/-- S1: the source's fixture. -/
theorem test_bst_C : step (at' 0 0 9 0 [2, 6]) = .next (at' 0 1 9 2 [2, 6]) := rfl
/-- S5: the source's fixture. -/
theorem test_bxc_0 : step (at' 0 2024 43690 0 [4, 0]) = .next (at' 0 44354 43690 2 [4, 0]) := rfl
/-- V30: operand 7 is ignored. -/
theorem test_bxc_7 : step (at' 0 2024 43690 0 [4, 7]) = .next (at' 0 44354 43690 2 [4, 7]) := rfl
/-- V34: the test is on all of A; literal 7; the target is absolute. -/
theorem test_jnz_taken : step (at' (2 ^ 80) 0 0 0 [3, 7]) = .next (at' (2 ^ 80) 0 0 7 [3, 7]) := rfl
/-- V32: not taken. -/
theorem test_jnz_not_taken : step (at' 0 0 0 0 [3, 4]) = .next (at' 0 0 0 2 [3, 4]) := rfl
/-- V41. -/
theorem test_out_C :
    step (at' 0 0 18446744073709551629 0 [5, 6]) =
      .next { at' 0 0 18446744073709551629 2 [5, 6] with out := [5] } := rfl
/-- S2, its last out: the new element stands after the earlier ones. -/
theorem test_out_appends :
    step { at' 10 0 0 4 [5, 0, 5, 1, 5, 4] with out := [0, 1] } =
      .next { at' 10 0 0 6 [5, 0, 5, 1, 5, 4] with out := [0, 1, 2] } := rfl

/-! Faults, halts and the launch (95_test_vectors.md sections 2.6, 2.7 and 3) -/

/-- P5: the fault after an output. -/
theorem test_fault_after_output :
    step { at' 9 0 0 2 [5, 0, 0, 7, 5, 1] with out := [0] } =
      .next { at' 9 0 0 2 [5, 0, 0, 7, 5, 1] with
        out := [0], status := .faulted, faultCause := some .invalidComboOperand, faultIp := some 2 } := rfl
/-- H1: the empty tape halts at once. -/
theorem test_empty_tape_halts : step (at' 7 8 9 0 []) = .next { at' 7 8 9 0 [] with status := .halted } := rfl
/-- P4(a): the odd decoding, then the halt on the cell without a partner. -/
theorem test_odd_decoding : step (at' 5 0 0 1 [3, 1, 5, 4]) = .next (at' 5 5 0 3 [3, 1, 5, 4]) := rfl
theorem test_odd_halt :
    step (at' 5 5 0 3 [3, 1, 5, 4]) = .next { at' 5 5 0 3 [3, 1, 5, 4] with status := .halted } := rfl
/-- H4: a tape of odd length is refused at launch. -/
theorem test_odd_tape_refused : launch 0 0 0 [5, 0, 5] = .refused .oddTapeLength := rfl
theorem test_halted_has_no_step : step { at' 1 0 0 2 [5, 0] with status := .halted } = .fault .noStepHalted := rfl
/-- The host's question about a row: the word bxl 5 placed at reset is the first instruction. -/
theorem test_fetch_word_at_reset :
    step (State.reset.withFetchWord 8 0b001101) = .next (at' 0 5 0 2 [1, 5]) := rfl
/-- S2 by the runner: the result is read at the halt; less fuel is out of fuel, not a halt. -/
theorem test_execute_S2 :
    execute 4 10 0 0 [5, 0, 5, 1, 5, 4] =
      .next (.halted { at' 10 0 0 6 [5, 0, 5, 1, 5, 4] with out := [0, 1, 2], status := .halted }) := rfl
theorem test_execute_out_of_fuel : execute 1 10 0 0 [5, 0] = .next (.outOfFuel { at' 10 0 0 2 [5, 0] with out := [0] }) := rfl
/-- The examples of 30_encoding.md R52 and the reserved spelling. -/
theorem test_assembly :
    [assembly 0 1, assembly 5 4, assembly 2 6, assembly 3 0, assembly 4 0, assembly 1 7, assembly 5 7] =
      [some ("adv", "1"), some ("out", "A"), some ("bst", "C"), some ("jnz", "0"), some ("bxc", "0"),
        some ("bxl", "7"), some ("out", "?7")] := by decide
/-- The listing of P1 (95_test_vectors.md section 3). -/
theorem test_listing :
    listingFrom 0 [0, 1, 5, 4, 3, 0] =
      [(0, some ("adv", "1")), (2, some ("out", "A")), (4, some ("jnz", "0"))] := by decide
/-- The bit lengths the spec gives (70_reset_and_hazards.md R102, 95_test_vectors.md S9). -/
theorem test_bit_lengths : [bl 0, bl 1, bl 2024, bl 117440, bl (2 ^ 48)] = [0, 1, 11, 17, 49] := by decide
/-- The passes the spec gives (70_reset_and_hazards.md R102, 95_test_vectors.md S9). -/
theorem test_passes : [passes 2024 1, passes 117440 3, passes 0 1, passes (2 ^ 48) 3] = [11, 6, 1, 17] := by decide

/-! Witnesses of the hypotheses of the statements -/

theorem witness_DecodeInvertsEncode :
    [Instr.adv (.lit 3), .bxl 7, .bst (.reg .A), .jnz 7, .bxc, .out (.reg .C), .bdv (.lit 0), .cdv (.reg .B)].all
      Instr.wf = true := by decide
theorem witness_DecodedPairsReencode :
    decodeCells 0 6 = .ok (.adv (.reg .C)) ∧ decodeCells 4 7 = .ok .bxc := by decide
theorem witness_ReservedPairsAreExactlyFive : decodeCells 7 6 ≠ .rejected .invalidComboOperand := by decide
theorem witness_DefensiveRangeChecksComeFirst :
    7 < 8 ∧ decode 8 0 = .rejected .invalidOpcode ∧ decode 7 8 = .rejected .invalidOperandCell := by decide

theorem witness_AdvDividesAByAPowerOfTwo_pair :
    fetch (at' 13 0 0 0 [0, 0]) = some (0, 0) ∧ comboForm (0 : Cell).toNat = some (.lit 0) ∧
    fetch (at' 13 0 0 0 [0, 6]) = some (0, 6) ∧ comboForm (6 : Cell).toNat = some (.reg .C) ∧
    (at' 13 0 0 0 [0, 6]).status = .running := by decide
theorem witness_AdvDividesAByAPowerOfTwo_reserved :
    fetch (at' 13 0 0 0 [0, 7]) = some (0, 7) ∧ (at' 13 0 0 0 [0, 7]).status = .running := by decide
theorem witness_AdvDividesAByAPowerOfTwo_corners :
    bl (at' 1000 0 10 0 [0, 6]).a ≤ comboValue (.reg .C) (at' 1000 0 10 0 [0, 6]) ∧
    (at' 0 0 0 0 [0, 4]).a = 0 ∧ (at' 2024 0 0 0 [0, 1]).a = 2024 := by decide
theorem witness_AdvDividesAByAPowerOfTwo_onlyWriter :
    ∃ t, exec (.adv (.lit 1)) (at' 2 0 0 0 [0, 1]) = .next t ∧ t.a ≠ (at' 2 0 0 0 [0, 1]).a :=
  ⟨_, rfl, by decide⟩
theorem witness_BdvDividesAIntoB :
    fetch (at' 1000 9 0 0 [6, 0]) = some (6, 0) ∧ comboForm (0 : Cell).toNat = some (.lit 0) ∧
    fetch (at' 1000 9 0 0 [6, 6]) = some (6, 6) ∧ comboForm (6 : Cell).toNat = some (.reg .C) ∧
    fetch (at' 1000 9 0 0 [6, 7]) = some (6, 7) ∧ (at' 1000 9 0 0 [6, 7]).status = .running ∧
    (at' 1000 9 0 0 [6, 5]).a = 1000 ∧ (at' 1000 9 0 0 [6, 5]).b = 9 := by decide
theorem witness_CdvDividesAIntoC :
    fetch (at' 13 2 0 0 [7, 0]) = some (7, 0) ∧ comboForm (0 : Cell).toNat = some (.lit 0) ∧
    fetch (at' 13 2 0 0 [7, 6]) = some (7, 6) ∧ comboForm (6 : Cell).toNat = some (.reg .C) ∧
    fetch (at' 13 2 0 0 [7, 7]) = some (7, 7) ∧ (at' 13 2 0 0 [7, 7]).status = .running ∧
    (at' 13 2 0 0 [7, 5]).a = 13 ∧ (at' 13 2 0 0 [7, 5]).b = 2 := by decide
theorem witness_CdvDividesAIntoC_onlyWriter :
    ∃ t, exec (.cdv (.lit 0)) (at' 2 0 0 0 [7, 0]) = .next t ∧ t.c ≠ (at' 2 0 0 0 [7, 0]).c :=
  ⟨_, rfl, by decide⟩
theorem witness_BxlXorsALiteralIntoB :
    fetch (at' 0 29 0 0 [1, 0]) = some (1, 0) ∧ fetch (at' 0 29 0 0 [1, 7]) = some (1, 7) ∧
    (at' 0 29 0 0 [1, 7]).status = .running ∧ (at' 0 7 0 0 [1, 7]).b < 8 ∧ (at' 0 29 0 0 [1, 7]).b = 29 := by decide
theorem witness_BxlXorsALiteralIntoB_twice :
    ∃ t u, exec (.bxl 7) (at' 0 7 0 0 [1, 7]) = .next t ∧ exec (.bxl 7) t = .next u := ⟨_, _, rfl, rfl⟩
theorem witness_BstTakesTheLowThreeBits :
    fetch (at' 0 99 9 0 [2, 0]) = some (2, 0) ∧ comboForm (0 : Cell).toNat = some (.lit 0) ∧
    fetch (at' 0 99 9 0 [2, 6]) = some (2, 6) ∧ comboForm (6 : Cell).toNat = some (.reg .C) ∧
    fetch (at' 0 99 9 0 [2, 7]) = some (2, 7) ∧ (at' 0 99 9 0 [2, 7]).status = .running ∧
    (Combo.lit 3).wf = true ∧ (at' 0 99 9 0 [2, 6]).c = 9 := by decide
theorem witness_BxcXorsCIntoBWhateverItsOperand :
    fetch (at' 0 2024 43690 0 [4, 0]) = some (4, 0) ∧ fetch (at' 0 2024 43690 0 [4, 7]) = some (4, 7) ∧
    (at' 0 2024 43690 0 [4, 7]).status = .running ∧ (at' 0 5 0 0 [4, 0]).c = 0 ∧
    (at' 0 5 5 0 [4, 0]).b = (at' 0 5 5 0 [4, 0]).c ∧ (at' 0 2024 43690 0 [4, 7]).b = 2024 ∧
    (at' 0 2024 43690 0 [4, 7]).c = 43690 := by decide
theorem witness_BxcXorsCIntoBWhateverItsOperand_bits :
    ∃ t, exec .bxc (at' 0 5 8 0 [4, 0]) = .next t ∧ t.b = 13 := ⟨_, rfl, by decide⟩
theorem witness_JnzJumpsAbsolutelyWhenAIsNotZero :
    (at' 1 0 0 0 [3, 0]).a ≠ 0 ∧ (at' 0 0 0 0 [3, 0]).a = 0 ∧ fetch (at' 1 0 0 0 [3, 0]) = some (3, 0) ∧
    fetch (at' 1 0 0 0 [3, 7]) = some (3, 7) ∧ (at' 1 0 0 0 [3, 7]).status = .running := by decide
theorem witness_OutAppendsOneCell :
    fetch (at' 10 0 0 0 [5, 0]) = some (5, 0) ∧ comboForm (0 : Cell).toNat = some (.lit 0) ∧
    fetch (at' 10 0 0 0 [5, 6]) = some (5, 6) ∧ comboForm (6 : Cell).toNat = some (.reg .C) ∧
    fetch (at' 10 0 0 0 [5, 7]) = some (5, 7) ∧ (at' 10 0 0 0 [5, 7]).status = .running ∧
    (at' 10 0 0 0 [5, 4]).a = 10 := by decide
theorem witness_InstructionsReadAndWriteByTheTable :
    (∃ t, exec (.adv (.reg .C)) (at' 8 1 2 0 [0, 6]) = .next t) ∧
    (∃ t, exec (.adv (.reg .C)) (at' 8 5 2 4 [0, 6]) = .next t) ∧
    (∀ r, readsReg (.adv (.reg .C)) r = true → readReg r (at' 8 5 2 4 [0, 6]) = readReg r (at' 8 1 2 0 [0, 6])) :=
  ⟨⟨_, rfl⟩, ⟨_, rfl⟩, fun r => by cases r <;> decide⟩
theorem witness_StepRunsTheDecodedInstruction :
    (at' 1 0 0 2 [5, 4, 3, 0]).status = .running ∧ cellAt 2 (at' 1 0 0 2 [5, 4, 3, 0]) = some 3 ∧
    cellAt 3 (at' 1 0 0 2 [5, 4, 3, 0]) = some 0 ∧ decodeCells 3 0 = .ok (.jnz 0) := by decide
theorem witness_TheEngineStepsExactlyWhileRunning :
    ∃ t, step (at' 1 0 0 0 [5, 4]) = .next t := ⟨_, rfl⟩
theorem witness_TheHaltingTestEndsTheRun :
    (at' 1 0 0 1 [5, 4]).status = .running ∧ (at' 1 0 0 1 [5, 4]).tape.length ≤ (at' 1 0 0 1 [5, 4]).pc + 1 ∧
    (at' 1 0 0 0 []).tape = [] := by decide
theorem witness_TheHaltingTestEndsTheRun_halted :
    ∃ t, step (at' 1 0 0 2 [5, 4]) = .next t ∧ t.status = .halted := ⟨_, rfl, by decide⟩
theorem witness_TheFetchStaysInsideTheTape :
    fetch (at' 1 0 0 0 [5, 4]) = some (5, 4) ∧ cellAt 1 (at' 1 0 0 1 [5, 4]) = some 4 ∧
    cellAt 2 (at' 1 0 0 1 [5, 4]) = none ∧ (at' 1 0 0 1 [5, 4]).status = .running := by decide
theorem witness_TheProgramStoreIsNeverWritten :
    (∃ t, step (at' 1 0 0 0 [5, 4]) = .next t) ∧ (∃ t, runFor 2 (at' 1 0 0 0 [5, 4]) = .next t) ∧
    ∃ t, exec (.bxl 7) (at' 1 0 0 0 [5, 4]) = .next t := ⟨⟨_, rfl⟩, ⟨_, rfl⟩, ⟨_, rfl⟩⟩
theorem witness_PcAdvancesByTwoUnlessAJumpIsTaken :
    (∃ t, step (at' 1 0 0 0 [5, 4]) = .next t ∧ t.status = .running) ∧
    ∃ t, step (at' 1 0 0 0 [5, 7]) = .next t ∧ t.status ≠ .running := ⟨⟨_, rfl, rfl⟩, ⟨_, rfl, by decide⟩⟩
theorem witness_JumpsReachOnlyTheFirstEightCells :
    ∃ t, step (at' 1 0 0 6 [0, 0, 0, 0, 0, 0, 5, 4]) = .next t ∧ t.status = .running ∧ 8 ≤ t.pc :=
  ⟨_, rfl, rfl, by decide⟩
theorem witness_StatusChangesAtMostOnce :
    (∃ t, runFor 1 (at' 1 0 0 0 []) = .next t ∧ t.status ≠ .running) ∧
    ({ at' 1 0 0 0 [] with status := .halted } : State).status = .halted ∧
    ({ at' 1 0 0 0 [] with status := .faulted } : State).status = .faulted := ⟨⟨_, rfl, by decide⟩, rfl, rfl⟩
theorem witness_ReservedPairsRaiseADecodeError :
    fetch (at' 1 0 0 0 [0, 7]) = some (0, 7) ∧ fetch (at' 1 0 0 0 [7, 7]) = some (7, 7) ∧
    (at' 1 0 0 0 [7, 7]).status = .running := by decide
theorem witness_TheFaultRecordPointsAtTheReservedPair :
    ∃ t, step (at' 1 0 0 0 [2, 7]) = .next t ∧ t.status = .faulted := ⟨_, rfl, rfl⟩
theorem witness_ARaiseIsPrecise :
    ∃ t, step (at' 1 0 0 2 [5, 4, 6, 7]) = .next t ∧ t.status = .faulted := ⟨_, rfl, rfl⟩
theorem witness_TapesWithoutReservedPairsNeverFault :
    NoReservedPair (at' 1 0 0 0 [5, 4]).tape ∧ (at' 1 0 0 0 [5, 4]).status ≠ .faulted := by
  refine ⟨fun j opc opd h => ?_, by decide⟩
  have hj : j = 0 := by
    by_contra hne
    have hn := (fetchPair_eq_none_iff [5, 4] j).mpr (by simp; omega)
    exact absurd (hn.symm.trans h) (by simp)
  subst hj
  cases h
  exact ⟨.out (.reg .A), by decide⟩
theorem witness_LaunchMakesTheStateOfTheTable :
    ([] : List Cell).length % 2 = 0 ∧ ([5] : List Cell).length % 2 = 1 := by decide
theorem witness_TheRunnerKeepsItsThreeOutcomesApart :
    (∃ t, runWithFuel 1 (at' 1 0 0 0 []) = .halted t ∧ runFor 1 (at' 1 0 0 0 []) = .next t ∧ t.status = .halted) ∧
    (∃ t, runWithFuel 1 (at' 1 0 0 0 [0, 7]) = .faulted t ∧ runFor 1 (at' 1 0 0 0 [0, 7]) = .next t ∧
      t.status = .faulted) ∧
    ∃ t, runWithFuel 1 (at' 1 0 0 0 [5, 0]) = .outOfFuel t ∧ runFor 1 (at' 1 0 0 0 [5, 0]) = .next t ∧
      t.status = .running := ⟨⟨_, rfl, rfl, rfl⟩, ⟨_, rfl, rfl, rfl⟩, ⟨_, rfl, rfl, rfl⟩⟩
theorem witness_EveryStepKeepsTheInvariant :
    Inv (at' 1 0 0 0 [5, 7]) ∧ ∃ t, step (at' 1 0 0 0 [5, 7]) = .next t :=
  ⟨⟨by decide, by decide, by decide, by decide, fun h => absurd h (by decide)⟩, ⟨_, rfl⟩⟩
theorem witness_LaunchHasTheInvariant : ∃ s, launch 1 2 3 [5, 4] = .next s := ⟨_, rfl⟩
theorem witness_PcStaysEvenUnlessAnOddJumpIsTaken :
    (at' 1 0 0 0 [5, 4]).pc % 2 = 0 ∧ (∃ t, step (at' 1 0 0 0 [5, 4]) = .next t) ∧
    (∀ k, takesJump (at' 1 0 0 0 [5, 4]) k → k.toNat % 2 = 0) ∧
    takesJump (at' 1 0 0 0 [3, 1]) 1 ∧ (1 : Cell).toNat % 2 = 1 :=
  ⟨by decide, ⟨_, rfl⟩, fun k h => absurd h.2.1 (by clear h; revert k; decide), ⟨rfl, by decide, by decide⟩, by decide⟩
theorem witness_EvenJumpTapesKeepPcEven :
    EvenJumps (at' 1 0 0 0 [3, 6]).tape ∧ (at' 1 0 0 0 [3, 6]).pc % 2 = 0 ∧
    ∃ t, runFor 1 (at' 1 0 0 0 [3, 6]) = .next t := by
  refine ⟨fun j opd _ h => ?_, by decide, ⟨_, rfl⟩⟩
  have hj : j = 0 := by
    by_contra hne
    have hn := (fetchPair_eq_none_iff [3, 6] j).mpr (by simp; omega)
    exact absurd (hn.symm.trans h) (by simp)
  subst hj
  cases h
  decide
theorem witness_RegistersStayWithinTheLaunchBits :
    ∃ t, runFor 2 (State.launched 8 1 2 [0, 1, 7, 0]) = .next t := ⟨_, rfl⟩
theorem witness_OutGrowsByOneCellPerOutExecuted :
    ∃ t, runFor 2 (at' 10 0 0 0 [5, 0, 5, 4]) = .next t ∧ outsExecuted 2 (at' 10 0 0 0 [5, 0, 5, 4]) = 2 :=
  ⟨_, rfl, by decide⟩
theorem witness_AJumpToItselfNeverEnds :
    takesJump (at' 1 0 0 0 [3, 0]) 0 ∧ (0 : Cell).toNat = (at' 1 0 0 0 [3, 0]).pc :=
  ⟨⟨rfl, by decide, by decide⟩, by decide⟩
theorem witness_ShrinkingLoopsHalt :
    ([0, 1, 3, 0] : List Cell).length % 2 = 0 ∧
    decodeTape [0, 1, 3, 0] = [Instr.adv (.lit 1)].map .ok ++ [.ok (.jnz 0)] ∧
    (∀ i ∈ [Instr.adv (.lit 1)], shrinkBody i = true) ∧ 1 ≤ bodyShift [Instr.adv (.lit 1)] := by decide
theorem witness_TheStrictVariantKeepsPcEven :
    (at' 1 0 0 0 [5, 4]).pc % 2 = 0 ∧ (∃ t, stepUnder .faults (at' 1 0 0 0 [5, 4]) = .next t) ∧
    takesJump (at' 1 0 0 0 [3, 7]) 7 ∧ (7 : Cell).toNat % 2 = 1 ∧
    (∀ k, takesJump (at' 0 0 0 0 [3, 7]) k → k.toNat % 2 = 0) :=
  ⟨by decide, ⟨_, rfl⟩, ⟨rfl, by decide, by decide⟩, by decide, fun k h => absurd rfl h.2.2⟩
theorem witness_FixedWidthStepIsTheArchitecturesStep :
    ∃ x y : FixedState 3, 3 ≤ 3 ∧ fixedStep x = .next y ∧ x.toState = at' 7 6 5 0 [0, 4] :=
  ⟨{ a := 7, b := 6, c := 5, pc := 0, out := [], status := .running, faultCause := none, faultIp := none,
     tape := [0, 4] }, _, by decide, rfl, by decide⟩
theorem witness_FixedWidthMachinesAreIndistinguishable :
    ([5, 4] : List Cell).length % 2 = 0 ∧ 3 < launchBits 8 0 0 ∧ launchBits 7 0 0 ≤ 3 := by decide
/-- The refusal of a width below 3 although every launch value fits (assumption 7). -/
theorem witness_FixedWidthMachinesAreIndistinguishable_narrow :
    ([5, 4] : List Cell).length % 2 = 0 ∧ 2 < launchBits 1 0 0 ∧ bl 1 ≤ 2 ∧ bl 0 ≤ 2 := by decide

end Sys2Proof.Tests
end

/-! Scope (00_scope.md): the arithmetic primitives. -/
namespace Sys2Proof.Machine

/-- `mod8` is a cell, so at most 7 (00_scope.md R12). -/
theorem mod8_toNat_le (v : Nat) : (mod8 v).toNat ≤ 7 := by
  have hmod := mod8_toNat v
  omega

/-- Bits 0 to 2 of v are those of `mod8 v`; the cell has no further bit (00_scope.md R12, `v[2:0]`). -/
theorem mod8_toNat_testBit (v i : Nat) :
    (mod8 v).toNat.testBit i = (decide (i < 3) && v.testBit i) := by
  rw [mod8_toNat]
  exact Nat.testBit_mod_two_pow v 3 i

/-- Settles O3: the low bits, from the bits of `mod8` read as numbers. -/
theorem mod8KeepsTheLowThreeBits : Obligations.Mod8KeepsTheLowThreeBits := by
  intro v
  refine ⟨mod8_toNat v, mod8_toNat_le v, fun i hi => ?_⟩
  have hbit : (mod8 v).toNat.testBit i = v.testBit i := by simp [mod8_toNat_testBit, hi]
  rw [← Nat.toNat_testBit, ← Nat.toNat_testBit, hbit]

end Sys2Proof.Machine

/-! The Program Store (20_memory.md): no step writes it. -/
namespace Sys2Proof.Machine

/-- A cell is read from the tape alone. -/
theorem cellAt_congr {s t : State} (htape : t.tape = s.tape) (addr : Nat) : cellAt addr t = cellAt addr s := by
  simp [cellAt, htape]

/-- An instruction's next state is the old one but for the registers, pc and OUT (20_memory.md R27, its quote). -/
theorem exec_frame {i : Instr} {s t : State} (h : exec i s = .next t) :
    t = { s with a := t.a, b := t.b, c := t.c, pc := t.pc, out := t.out } := by
  obtain ⟨htape, hstatus, hcause, hip⟩ := exec_keeps_control h
  rw [← htape, ← hstatus, ← hcause, ← hip]

/-- A halt, a raise and an instruction all keep the tape (20_memory.md R27). -/
theorem step_keeps_tape {s t : State} (h : step s = .next t) : t.tape = s.tape := by
  obtain ⟨-, ⟨-, rfl⟩ | ⟨cause, -, rfl⟩ | ⟨i, -, hexec⟩⟩ := step_cases h
  · exact halt_tape s
  · exact raiseDecodeError_tape cause s.pc s
  · exact (exec_keeps_control hexec).1

/-- The induction over a run: what every step keeps, the run keeps. -/
theorem runFor_keeps {P : State → Prop} (hstep : ∀ s t, P s → step s = .next t → P t) {k : Nat} {s t : State}
    (hs : P s) (hrun : runFor k s = .next t) : P t := by
  induction k generalizing s with
  | zero => cases hrun; exact hs
  | succ k ih =>
    obtain ⟨u, hu, hrest⟩ := (runFor_succ_eq_next_iff k s t).mp hrun
    exact ih (hstep s u hs hu) hrest

/-- Nothing writes the Program Store in a run of any length (20_memory.md R27). -/
theorem runFor_keeps_tape {k : Nat} {s t : State} (hrun : runFor k s = .next t) : t.tape = s.tape :=
  runFor_keeps (P := fun u => u.tape = s.tape) (fun _ _ hu hstep => (step_keeps_tape hstep).trans hu) rfl hrun

/-- Settles O24: a step keeps the tape, hence each cell and every run; an instruction's frame is `exec_frame`. -/
theorem theProgramStoreIsNeverWritten : Obligations.TheProgramStoreIsNeverWritten :=
  ⟨fun _ _ h => ⟨step_keeps_tape h, cellAt_congr (step_keeps_tape h)⟩,
    fun _ _ _ h => runFor_keeps_tape h, fun _ _ _ h => exec_frame h⟩

end Sys2Proof.Machine

/-! The execution engine (40_execution_engine.md): the operand values and the advance of pc. -/
namespace Sys2Proof.Machine

/-- The operand cells 0 to 3 are the literal forms (30_encoding.md R45). -/
theorem comboForm_of_le_three {o : Nat} (h : o ≤ 3) : comboForm o = some (.lit (BitVec.ofNat 3 o)) := by
  interval_cases o <;> rfl

/-- A literal form has its own value, whatever the state (40_execution_engine.md R58). -/
@[simp] theorem comboValue_lit (k : Cell) (s : State) : comboValue (.lit k) s = k.toNat := rfl

/-- A register form has the value of the whole register (40_execution_engine.md R58). -/
@[simp] theorem comboValue_reg (r : Reg) (s : State) : comboValue (.reg r) s = readReg r s := rfl

/-- Settles O4: the literal forms first, then the register forms 4 to 6 and the operand 7. -/
theorem comboOperandValues : Obligations.ComboOperandValues := by
  intro s
  refine ⟨fun o ho => ⟨_, comboForm_of_le_three ho, ?_⟩, ⟨.reg .A, rfl, comboValue_reg .A s⟩,
    ⟨.reg .B, rfl, comboValue_reg .B s⟩, ⟨.reg .C, rfl, comboValue_reg .C s⟩,
    (comboForm_eq_none_iff 7).mpr le_rfl⟩
  rw [comboValue_lit, BitVec.toNat_ofNat]
  omega

/-- The condition of jnz is A ≠ 0, on the whole of A (10_state.md R22). -/
theorem jumpCondition_iff (s : State) : jumpCondition s = true ↔ s.a ≠ 0 := by
  simp [jumpCondition]

/-- In terms of the decoded instruction: a running state takes a jump to k exactly when it decodes jnz k and A is not
0 (43_jump.md R73). -/
theorem takesJump_iff_of_fetchDecode {s : State} {i : Instr} (hrun : s.status = .running)
    (hd : fetchDecode s = some (.ok i)) (k : Cell) : takesJump s k ↔ i = .jnz k ∧ s.a ≠ 0 := by
  simp [takesJump, hrun, hd]

/-- pc after jnz: the literal when A is not 0, else the ordinary advance (43_jump.md R73). -/
theorem exec_jnz_pc {k : Cell} {s t : State} (h : exec (.jnz k) s = .next t) :
    (s.a ≠ 0 ∧ t.pc = k.toNat) ∨ (s.a = 0 ∧ t.pc = s.pc + 2) := by
  cases h
  by_cases ha : s.a = 0
  · simp [jumpCondition_iff, ha]
  · simp [jumpCondition_iff, ha, literalValue]

/-- Every instruction but jnz advances pc by 2 (40_execution_engine.md R62). -/
theorem exec_pc_of_ne_jnz {i : Instr} {s t : State} (hne : ∀ k, i ≠ .jnz k) (h : exec i s = .next t) :
    t.pc = s.pc + 2 := by
  rcases exec_cases h with ⟨_, -, rfl⟩ | ⟨_, -, rfl⟩ | ⟨_, -, rfl⟩ | ⟨k, hjnz, -⟩ | ⟨-, rfl⟩ | ⟨_, -, rfl⟩ |
    ⟨_, -, rfl⟩ | ⟨_, -, rfl⟩
  case inr.inr.inr.inl => exact absurd hjnz (hne k)
  all_goals simp [divideInto, setB]

/-- pc after an instruction, by whether it is a taken jnz (40_execution_engine.md R62). -/
theorem exec_pc_cases {i : Instr} {s t : State} (h : exec i s = .next t) :
    (∃ k, (i = .jnz k ∧ s.a ≠ 0) ∧ t.pc = k.toNat) ∨ (∀ k, ¬ (i = .jnz k ∧ s.a ≠ 0)) ∧ t.pc = s.pc + 2 := by
  by_cases hjnz : ∃ k, i = .jnz k
  · obtain ⟨k, rfl⟩ := hjnz
    rcases exec_jnz_pc h with ⟨ha, hpc⟩ | ⟨ha, hpc⟩
    · exact .inl ⟨k, ⟨rfl, ha⟩, hpc⟩
    · exact .inr ⟨fun _ hj => hj.2 ha, hpc⟩
  · have hne : ∀ k, i ≠ .jnz k := not_exists.mp hjnz
    exact .inr ⟨fun k hj => hne k hj.1, exec_pc_of_ne_jnz hne h⟩

/-- Settles O25: a halt and a raise leave RUNNING and pc; an instruction stays RUNNING and moves pc as
`exec_pc_cases` says. -/
theorem pcAdvancesByTwoUnlessAJumpIsTaken : Obligations.PcAdvancesByTwoUnlessAJumpIsTaken := by
  intro s t h
  obtain ⟨hrun, ⟨-, rfl⟩ | ⟨cause, -, rfl⟩ | ⟨i, hd, hexec⟩⟩ := step_cases h
  · simp
  · simp
  · have hstatus : t.status = .running := (exec_keeps_control hexec).2.1.trans hrun
    refine ⟨fun _ => ?_, fun hne => absurd hstatus hne⟩
    simpa only [takesJump_iff_of_fetchDecode hrun hd] using exec_pc_cases hexec

end Sys2Proof.Machine

/-! The bitwise family (42_bitwise.md): bxl and bst write B alone; xor with a cell moves only the low three bits. -/
namespace Sys2Proof.Machine

/-- Every operand of a literal-kind opcode is accepted, as the cell it is (30_encoding.md R44). -/
theorem withLiteral_toNat (make : Cell → Instr) (opd : Cell) : withLiteral make opd.toNat = .ok (make opd) := by
  rw [withLiteral_of_lt make _ opd.isLt, BitVec.ofNat_toNat, BitVec.setWidth_eq]

/-- An operand with a combo form gives the instruction of that form (30_encoding.md R47). -/
theorem withCombo_of_comboForm (make : Combo → Instr) {o : Nat} {f : Combo} (h : comboForm o = some f) :
    withCombo make o = .ok (make f) :=
  (withCombo_eq_ok_iff make o (make f)).mpr ⟨f, h, rfl⟩

/-- The operand 7 is rejected for every combo-kind opcode (40_execution_engine.md R59). -/
theorem withCombo_seven (make : Combo → Instr) : withCombo make 7 = .rejected .invalidComboOperand := rfl

/-- A cell has only bits 0 to 2, so xor with it keeps bits 3 and above (42_bitwise.md R69). -/
theorem xorNat_cell_div_eight (v : Nat) (k : Cell) : xorNat v k.toNat / 8 = v / 8 := by
  have hk : k.toNat / 2 ^ 3 = 0 := Nat.div_eq_of_lt k.isLt
  calc (v ^^^ k.toNat) / 2 ^ 3 = v / 2 ^ 3 ^^^ k.toNat / 2 ^ 3 := Nat.xor_div_two_pow
    _ = v / 2 ^ 3 := by rw [hk, Nat.xor_zero]

/-- xor with the same value twice is no change (00_scope.md R11). -/
theorem xorNat_xorNat_cancel (v n : Nat) : xorNat (xorNat v n) n = v := Nat.xor_xor_cancel_right v n

/-- xor with 7 complements the low three bits (42_bitwise.md R69). -/
theorem xorNat_seven_mod_eight (v : Nat) : xorNat v 7 % 8 = 7 - v % 8 := by
  have hcell : ∀ x < 8, x ^^^ 7 = 7 - x := by decide
  calc (v ^^^ 7) % 2 ^ 3 = v % 2 ^ 3 ^^^ 7 % 2 ^ 3 := Nat.xor_mod_two_pow
    _ = 7 - v % 8 := hcell _ (Nat.mod_lt v (by decide))

/-- The next state of bxl (42_bitwise.md R69). -/
theorem exec_bxl (k : Cell) (s : State) :
    exec (.bxl k) s = .next { s with b := xorNat s.b k.toNat, pc := s.pc + 2 } := rfl

/-- B after bxl (42_bitwise.md R69). -/
theorem exec_bxl_b {k : Cell} {s t : State} (h : exec (.bxl k) s = .next t) : t.b = xorNat s.b k.toNat := by
  cases h; rfl

/-- The next state of bst: of the old B nothing is left, unless B is the operand (42_bitwise.md R70). -/
theorem exec_bst (f : Combo) (s : State) :
    exec (.bst f) s = .next { s with b := comboValue f s % 8, pc := s.pc + 2 } := by
  rw [← mod8_toNat]; rfl

/-- bst when its operand's value is known (42_bitwise.md R70). -/
theorem exec_bst_of_mod {f : Combo} {s : State} {v : Nat} (h : comboValue f s % 8 = v) :
    exec (.bst f) s = .next { s with b := v, pc := s.pc + 2 } := by
  rw [exec_bst, h]

/-- The literals 0 to 7 are their own low three bits. -/
theorem comboValue_lit_mod_eight (k : Cell) (s : State) : comboValue (.lit k) s % 8 = k.toNat :=
  Nat.mod_eq_of_lt k.isLt

/-- Settles O13: the next state is `exec_bxl`; the corner cases are facts about xor with a cell. -/
theorem bxlXorsALiteralIntoB : Obligations.BxlXorsALiteralIntoB := by
  refine ⟨exec_bxl, ?dispatch, ?keepsHighBits, ?zero, ?twice, ?below8, ?complement, ?worked⟩
  case dispatch => exact fun s opd hrun hf => step_of_ok hrun hf (withLiteral_toNat .bxl opd)
  case keepsHighBits =>
    intro k s t h
    rw [exec_bxl_b h, xorNat_cell_div_eight]
  case zero =>
    intro s
    have hzero : xorNat s.b (0 : Cell).toNat = s.b := Nat.xor_zero s.b
    rw [exec_bxl, hzero]
  case twice =>
    intro k s t u hst htu
    rw [exec_bxl_b htu, exec_bxl_b hst, xorNat_xorNat_cancel]
  case below8 =>
    intro k s t hb h
    have hdiv := xorNat_cell_div_eight s.b k
    rw [exec_bxl_b h]
    omega
  case complement =>
    intro s t h
    rw [exec_bxl_b h]
    exact xorNat_seven_mod_eight s.b
  case worked =>
    intro s hb
    rw [exec_bxl, hb]
    rfl

/-- Settles O14: the next state is `exec_bst`; the corner cases are its value at each operand, and operand 7 raises,
which leaves B. -/
theorem bstTakesTheLowThreeBits : Obligations.BstTakesTheLowThreeBits := by
  refine ⟨exec_bst, ?dispatch, ?reserved, fun k s _ => exec_bst_of_mod (comboValue_lit_mod_eight k s),
    exec_bst (.reg .A), exec_bst (.reg .B), ?wide, ?worked⟩
  case dispatch =>
    exact fun s opd f hrun hf hform => step_of_ok hrun hf (withCombo_of_comboForm .bst hform)
  case reserved =>
    intro s hrun hf
    exact ⟨_, step_of_rejected hrun hf (withCombo_seven .bst), raiseDecodeError_status _ s.pc s,
      raiseDecodeError_b _ s.pc s⟩
  case wide => norm_num [mod8_toNat]
  case worked =>
    intro s hc
    exact exec_bst_of_mod (by rw [comboValue_reg, readReg_C, hc])

end Sys2Proof.Machine

/-! Control transfer (43_jump.md): jnz writes pc alone, and never raises. -/
namespace Sys2Proof.Machine

/-- The next state of jnz, by its condition (43_jump.md R73). -/
theorem exec_jnz (k : Cell) (s : State) :
    exec (.jnz k) s = .next (if jumpCondition s then jumpTo (literalValue k) s else advance s) := rfl

/-- A taken jnz puts the literal in pc, absolute, with no 2 added (43_jump.md R73, its quote). -/
theorem exec_jnz_taken (k : Cell) {s : State} (ha : s.a ≠ 0) :
    exec (.jnz k) s = .next { s with pc := k.toNat } := by
  rw [exec_jnz, if_pos ((jumpCondition_iff s).mpr ha)]
  rfl

/-- A jnz that is not taken only falls through (43_jump.md R73). -/
theorem exec_jnz_not_taken (k : Cell) {s : State} (ha : s.a = 0) :
    exec (.jnz k) s = .next { s with pc := s.pc + 2 } := by
  have hcond : ¬ jumpCondition s = true := fun h => (jumpCondition_iff s).mp h ha
  rw [exec_jnz, if_neg hcond]
  rfl

/-- Settles O16: the two next states by the condition on A; every literal cell decodes, 7 among them, so the dispatch
has no reserved pair. -/
theorem jnzJumpsAbsolutelyWhenAIsNotZero : Obligations.JnzJumpsAbsolutelyWhenAIsNotZero := by
  refine ⟨fun k _ ha => exec_jnz_taken k ha, fun k _ ha => exec_jnz_not_taken k ha, ?dispatch⟩
  case dispatch => exact fun s opd hrun hf => step_of_ok hrun hf (withLiteral_toNat .jnz opd)

end Sys2Proof.Machine

/-! Output (44_output.md): out appends one cell to OUT and writes no register. -/
namespace Sys2Proof.Machine

/-- A cell is its own low three bits (00_scope.md R12). -/
@[simp] theorem mod8_cell (k : Cell) : mod8 k.toNat = k := by
  rw [mod8, BitVec.ofNat_toNat, BitVec.setWidth_eq]

/-- The next state of out: one cell more at the end of OUT, and pc (44_output.md R76). -/
theorem exec_out (f : Combo) (s : State) :
    exec (.out f) s = .next { s with out := s.out ++ [mod8 (comboValue f s)], pc := s.pc + 2 } := rfl

/-- out when the cell that its operand gives is known (44_output.md R76). -/
theorem exec_out_of_mod8 {f : Combo} {s : State} {v : Cell} (h : mod8 (comboValue f s) = v) :
    exec (.out f) s = .next { s with out := s.out ++ [v], pc := s.pc + 2 } := by
  rw [exec_out, h]

/-- Settles O17: the next state is `exec_out`; the constants and the worked example are its value at those operands,
and operand 7 raises, which appends nothing. -/
theorem outAppendsOneCell : Obligations.OutAppendsOneCell := by
  refine ⟨exec_out, ?dispatch, ?reserved, ?constant, ?worked⟩
  case dispatch =>
    exact fun s opd f hrun hf hform => step_of_ok hrun hf (withCombo_of_comboForm .out hform)
  case reserved =>
    intro s hrun hf
    exact ⟨_, step_of_rejected hrun hf (withCombo_seven .out), raiseDecodeError_status _ s.pc s,
      raiseDecodeError_out _ s.pc s⟩
  case constant =>
    intro k s
    exact exec_out_of_mod8 (by rw [comboValue_lit, mod8_cell])
  case worked =>
    intro s ha
    have hcell : mod8 10 = 2 := by decide
    exact exec_out_of_mod8 (by rw [comboValue_reg, readReg_A, ha, hcell])

end Sys2Proof.Machine

/-! Exceptions (60_exceptions.md): a step that faults is a raise, and a raise points at a reserved pair. -/
namespace Sys2Proof.Machine

/-- A combo-kind opcode rejects no operand below 7 (30_encoding.md R47). -/
theorem le_of_withCombo_eq_rejected {make : Combo → Instr} {o : Nat} {cause : DecodeCause}
    (h : withCombo make o = .rejected cause) : 7 ≤ o := by
  cases hform : comboForm o with
  | none => exact (comboForm_eq_none_iff o).mp hform
  | some f => cases (withCombo_of_comboForm make hform).symm.trans h

/-- The one operand cell that a combo-kind opcode rejects is 7 (60_exceptions.md R81). -/
theorem eq_seven_of_withCombo_eq_rejected {make : Combo → Instr} {opd : Cell} {cause : DecodeCause}
    (h : withCombo make opd.toNat = .rejected cause) : opd = 7 := by
  have hle := le_of_withCombo_eq_rejected h
  bv_omega

/-- The opcode cells, one by one (30_encoding.md R46). -/
theorem cell_cases (k : Cell) : k = 0 ∨ k = 1 ∨ k = 2 ∨ k = 3 ∨ k = 4 ∨ k = 5 ∨ k = 6 ∨ k = 7 := by
  revert k; decide

/-- A rejected pair of cells is a combo-kind opcode with operand 7: the literal and the ignored operands take every
cell (60_exceptions.md R81, its table). -/
theorem reserved_of_decodeCells_eq_rejected {opc opd : Cell} {cause : DecodeCause}
    (h : decodeCells opc opd = .rejected cause) :
    opd = 7 ∧ (opc = 0 ∨ opc = 2 ∨ opc = 5 ∨ opc = 6 ∨ opc = 7) := by
  rcases cell_cases opc with rfl | rfl | rfl | rfl | rfl | rfl | rfl | rfl
  case inr.inl => cases (withLiteral_toNat .bxl opd).symm.trans h
  case inr.inr.inr.inl => cases (withLiteral_toNat .jnz opd).symm.trans h
  case inr.inr.inr.inr.inl => cases (withIgnored_of_lt .bxc opd.toNat opd.isLt).symm.trans h
  all_goals exact ⟨eq_seven_of_withCombo_eq_rejected h, by decide⟩

/-- The fetched pair is the cells at pc and pc + 1 (40_execution_engine.md R55). -/
theorem fetch_eq_some_iff (s : State) (p : Cell × Cell) :
    fetch s = some p ↔ cellAt s.pc s = some p.1 ∧ cellAt (s.pc + 1) s = some p.2 :=
  fetchPair_eq_some_iff s.tape s.pc p

/-- What decodes is the pair that was fetched (40_execution_engine.md R57). -/
theorem fetchDecode_eq_some_iff (s : State) (d : Decoded) :
    fetchDecode s = some d ↔ ∃ p, fetch s = some p ∧ decodeCells p.1 p.2 = d := by
  rw [fetchDecode, Option.map_eq_some_iff]

/-- Only a raise leads to FAULTED: a halt leads to HALTED and an instruction keeps RUNNING (60_exceptions.md R80). -/
theorem raise_of_step_faulted {s t : State} (h : step s = .next t) (hfault : t.status = .faulted) :
    ∃ cause, fetchDecode s = some (.rejected cause) ∧ t = raiseDecodeError cause s.pc s := by
  obtain ⟨hrun, ⟨-, rfl⟩ | hraise | ⟨i, -, hexec⟩⟩ := step_cases h
  · cases (halt_status s).symm.trans hfault
  · exact hraise
  · have hstatus : t.status = .running := (exec_keeps_control hexec).2.1.trans hrun
    cases hstatus.symm.trans hfault

/-- Settles O29: the step is a raise with the pc of its start, the pair it fetched is a reserved one, and the raise
keeps the tape it was fetched from. -/
theorem theFaultRecordPointsAtTheReservedPair : Obligations.TheFaultRecordPointsAtTheReservedPair := by
  intro s t h hfault
  obtain ⟨cause, hd, rfl⟩ := raise_of_step_faulted h hfault
  obtain ⟨⟨opc, opd⟩, hfetch, hrejected⟩ := (fetchDecode_eq_some_iff s _).mp hd
  obtain ⟨hopc, hopd⟩ := (fetch_eq_some_iff s _).mp hfetch
  obtain ⟨rfl, hreserved⟩ := reserved_of_decodeCells_eq_rejected hrejected
  have hcells := cellAt_congr (step_keeps_tape h)
  exact ⟨raiseDecodeError_faultIp cause s.pc s, opc, (hcells _).trans hopc, (hcells _).trans hopd, hreserved⟩

end Sys2Proof.Machine

/-! The encoding (30_encoding.md): the decoder and the encoder against each other. -/
namespace Sys2Proof.Machine

/-- The operand cells that have a combo form are the cells of the well-formed forms (30_encoding.md R45). -/
theorem comboForm_cell {f : Combo} (hwf : f.wf = true) : comboForm f.cell.toNat = some f := by
  cases f with
  | lit k =>
    have hle : k.toNat ≤ 3 := of_decide_eq_true hwf
    rw [Combo.cell, comboForm_of_le_three hle, BitVec.ofNat_toNat, BitVec.setWidth_eq]
  | reg r => cases r <;> rfl

/-- The form of an operand cell is well formed and has that cell (30_encoding.md R45). -/
theorem wf_and_cell_of_comboForm {opd : Cell} {f : Combo} (h : comboForm opd.toNat = some f) :
    f.wf = true ∧ f.cell = opd := by
  rcases cell_cases opd with rfl | rfl | rfl | rfl | rfl | rfl | rfl | rfl <;> cases h <;> decide

/-- A combo-kind opcode gives back the well-formed form whose cell it is given (30_encoding.md R47). -/
theorem withCombo_cell (make : Combo → Instr) {f : Combo} (hwf : f.wf = true) :
    withCombo make f.cell.toNat = .ok (make f) :=
  withCombo_of_comboForm make (comboForm_cell hwf)

/-- What a combo-kind opcode decodes to is made of the well-formed form of its operand cell (30_encoding.md R47). -/
theorem form_of_withCombo_eq_ok {make : Combo → Instr} {opd : Cell} {i : Instr}
    (h : withCombo make opd.toNat = .ok i) : ∃ f, i = make f ∧ f.wf = true ∧ f.cell = opd := by
  obtain ⟨f, hform, rfl⟩ := (withCombo_eq_ok_iff make _ i).mp h
  exact ⟨f, rfl, wf_and_cell_of_comboForm hform⟩

/-- The two cells of a well-formed instruction decode to it (30_encoding.md R47). -/
theorem decodeCells_encode {i : Instr} (hwf : i.wf = true) : decodeCells (encode i).1 (encode i).2 = .ok i := by
  cases i with
  | adv f => exact withCombo_cell .adv hwf
  | bxl k => exact withLiteral_toNat .bxl k
  | bst f => exact withCombo_cell .bst hwf
  | jnz k => exact withLiteral_toNat .jnz k
  | bxc => rfl
  | out f => exact withCombo_cell .out hwf
  | bdv f => exact withCombo_cell .bdv hwf
  | cdv f => exact withCombo_cell .cdv hwf

/-- The word of a well-formed instruction decodes to it (30_encoding.md R42). -/
theorem decodeTableWord_encodeWord (n : Nat) {i : Instr} (hwf : i.wf = true) :
    decodeTableWord n (encodeWord i) = some i := by
  have hlt : encodeWord i < 64 := (Laws.encodeWord_of_cells i _ rfl).1
  rw [decodeTableWord_eq_some_iff, wordCells_encodeWord]
  exact ⟨hlt, decodeCells_encode hwf⟩

/-- Settles O5: the cells by the constructors of `Instr`, the word by the cells it holds. -/
theorem decodeInvertsEncode : Obligations.DecodeInvertsEncode :=
  fun _ hwf => ⟨decodeCells_encode hwf, decodeTableWord_encodeWord 8 hwf⟩

/-- Settles O8: each of the written words is the word of its instruction. -/
theorem writtenWordsDecode : Obligations.WrittenWordsDecode :=
  ⟨decodeTableWord_encodeWord 8 (i := .adv (.lit 1)) rfl, decodeTableWord_encodeWord 8 (i := .out (.reg .A)) rfl,
    decodeTableWord_encodeWord 8 (i := .bst (.reg .C)) rfl, decodeTableWord_encodeWord 8 (i := .jnz 0) rfl,
    decodeTableWord_encodeWord 8 (i := .bxc) rfl, decodeTableWord_encodeWord 8 (i := .bxl 7) rfl,
    decodeTableWord_encodeWord 8 (i := .bdv (.reg .B)) rfl, decodeTableWord_encodeWord 8 (i := .cdv (.reg .B)) rfl⟩

/-- Settles O6: by the opcode cell; the operand kind gives the form, and only bxc drops its operand. -/
theorem decodedPairsReencode : Obligations.DecodedPairsReencode := by
  intro opc opd i h
  rcases cell_cases opc with rfl | rfl | rfl | rfl | rfl | rfl | rfl | rfl
  case inr.inl => cases (withLiteral_toNat .bxl opd).symm.trans h; exact ⟨rfl, .inl rfl⟩
  case inr.inr.inr.inl => cases (withLiteral_toNat .jnz opd).symm.trans h; exact ⟨rfl, .inl rfl⟩
  case inr.inr.inr.inr.inl =>
    cases (withIgnored_of_lt .bxc opd.toNat opd.isLt).symm.trans h; exact ⟨rfl, .inr ⟨rfl, rfl⟩⟩
  all_goals
    obtain ⟨f, rfl, hwf, rfl⟩ := form_of_withCombo_eq_ok h
    exact ⟨hwf, .inl rfl⟩

/-- The five reserved pairs, and the one cause a rejected pair of cells has (30_encoding.md R47, 60_exceptions.md
R81). -/
theorem decodeCells_eq_rejected_iff (opc opd : Cell) (cause : DecodeCause) :
    decodeCells opc opd = .rejected cause ↔
      cause = .invalidComboOperand ∧ opd = 7 ∧ (opc = 0 ∨ opc = 2 ∨ opc = 5 ∨ opc = 6 ∨ opc = 7) := by
  have hreserved : (opc = 0 ∨ opc = 2 ∨ opc = 5 ∨ opc = 6 ∨ opc = 7) →
      decodeCells opc 7 = .rejected .invalidComboOperand := by
    rintro (rfl | rfl | rfl | rfl | rfl) <;> rfl
  constructor
  · intro h
    obtain ⟨rfl, hopc⟩ := reserved_of_decodeCells_eq_rejected h
    cases h.symm.trans (hreserved hopc)
    exact ⟨rfl, rfl, hopc⟩
  · rintro ⟨rfl, rfl, hopc⟩
    exact hreserved hopc

/-- Settles O7: the list of reserved words is a fact about 64 words; the rest is `decodeCells_eq_rejected_iff`. -/
theorem reservedPairsAreExactlyFive : Obligations.ReservedPairsAreExactlyFive := by
  refine ⟨fun opc opd => ?reserved, fun opc opd hne => ?others, by decide⟩
  case reserved => simp only [decodeCells_eq_rejected_iff, true_and]
  case others =>
    cases h : decodeCells opc opd with
    | ok i => exact ⟨i, rfl⟩
    | rejected cause =>
      obtain ⟨rfl, -⟩ := (decodeCells_eq_rejected_iff opc opd cause).mp h
      exact absurd h hne

/-- An opcode above 7 is rejected before its operand is looked at (30_encoding.md R49). -/
theorem decode_of_seven_lt_opcode {opc : Nat} (opd : Nat) (h : 7 < opc) :
    decode opc opd = .rejected .invalidOpcode := by
  obtain ⟨n, rfl⟩ := Nat.exists_eq_add_of_le' h
  rfl

/-- Every operand kind rejects an operand above 7 (30_encoding.md R49). -/
theorem decode_of_seven_lt_operand {opc opd : Nat} (hopc : opc ≤ 7) (h : 7 < opd) :
    decode opc opd = .rejected .invalidOperandCell := by
  interval_cases opc <;> exact if_pos h

/-- Settles O9: the two defensive checks, and the one cause that cells can be rejected for. -/
theorem defensiveRangeChecksComeFirst : Obligations.DefensiveRangeChecksComeFirst :=
  ⟨fun _ opd h => decode_of_seven_lt_opcode opd h, fun _ _ hopc h => decode_of_seven_lt_operand hopc h,
    fun opc opd => by simp [decodeCells_eq_rejected_iff]⟩

end Sys2Proof.Machine

/-! The execution engine (40_execution_engine.md) step by step: when it halts, raises and executes, and what stops
it. -/
namespace Sys2Proof.Machine

/-- The halting test fires: a running engine halts (40_execution_engine.md R54). -/
theorem step_of_fetchDecode_none {s : State} (hrun : s.status = .running) (hd : fetchDecode s = none) :
    step s = .next (halt s) := by
  simp [step, hrun, hd]

/-- A running engine executes the instruction that it decodes (40_execution_engine.md R61). -/
theorem step_of_fetchDecode_ok {s : State} {i : Instr} (hrun : s.status = .running)
    (hd : fetchDecode s = some (.ok i)) : step s = exec i s := by
  obtain ⟨p, hfetch, hok⟩ := (fetchDecode_eq_some_iff s _).mp hd
  exact step_of_ok hrun hfetch hok

/-- A running engine raises the cause for which it rejects the pair at pc (40_execution_engine.md R61). -/
theorem step_of_fetchDecode_rejected {s : State} {cause : DecodeCause} (hrun : s.status = .running)
    (hd : fetchDecode s = some (.rejected cause)) : step s = .next (raiseDecodeError cause s.pc s) := by
  obtain ⟨p, hfetch, hrejected⟩ := (fetchDecode_eq_some_iff s _).mp hd
  exact step_of_rejected hrun hfetch hrejected

/-- A halted engine has no step (40_execution_engine.md R53). -/
theorem step_of_halted {s : State} (h : s.status = .halted) : step s = .fault .noStepHalted := by
  simp [step, h]

/-- A faulted engine has no step (40_execution_engine.md R53). -/
theorem step_of_faulted {s : State} (h : s.status = .faulted) : step s = .fault .noStepFaulted := by
  simp [step, h]

/-- No instruction stops the machine (40_execution_engine.md R61). -/
theorem exists_exec_eq_next (i : Instr) (s : State) : ∃ t, exec i s = .next t := by
  cases i <;> exact ⟨_, rfl⟩

/-- A running engine has a step (40_execution_engine.md R53). -/
theorem exists_step_of_running {s : State} (hrun : s.status = .running) : ∃ t, step s = .next t := by
  match hd : fetchDecode s with
  | none => exact ⟨_, step_of_fetchDecode_none hrun hd⟩
  | some (.rejected cause) => exact ⟨_, step_of_fetchDecode_rejected hrun hd⟩
  | some (.ok i) =>
    rw [step_of_fetchDecode_ok hrun hd]
    exact exists_exec_eq_next i s

/-- The cells at pc and pc + 1, when they are all there is to know of the pair (40_execution_engine.md R55). -/
theorem fetch_of_cells {s : State} {opc opd : Cell} (hopc : cellAt s.pc s = some opc)
    (hopd : cellAt (s.pc + 1) s = some opd) : fetch s = some (opc, opd) :=
  (fetch_eq_some_iff s (opc, opd)).mpr ⟨hopc, hopd⟩

/-- Cells lie inside the tape (20_memory.md R25). -/
theorem cellAt_eq_none_iff (addr : Nat) (s : State) : cellAt addr s = none ↔ s.tape.length ≤ addr :=
  List.getElem?_eq_none_iff

/-- Settles O20: the two cells are the pair the engine fetches. -/
theorem stepRunsTheDecodedInstruction : Obligations.StepRunsTheDecodedInstruction :=
  fun _ _ _ _ hrun hopc hopd hok => step_of_ok hrun (fetch_of_cells hopc hopd) hok

/-- Settles O21: `exists_step_of_running` and the inversion `step_cases`. -/
theorem theEngineStepsExactlyWhileRunning : Obligations.TheEngineStepsExactlyWhileRunning :=
  fun _ => ⟨⟨fun ⟨_, h⟩ => (step_cases h).1, exists_step_of_running⟩, fun _ h => (step_cases h).2⟩

/-- Only the halting test leads to HALTED: a raise leads to FAULTED and an instruction keeps RUNNING
(40_execution_engine.md R54). -/
theorem halt_of_step_halted {s t : State} (h : step s = .next t) (hhalt : t.status = .halted) :
    fetchDecode s = none ∧ t = halt s := by
  obtain ⟨hrun, hnone | ⟨cause, -, rfl⟩ | ⟨i, -, hexec⟩⟩ := step_cases h
  · exact hnone
  · cases (raiseDecodeError_status cause s.pc s).symm.trans hhalt
  · have hstatus : t.status = .running := (exec_keeps_control hexec).2.1.trans hrun
    cases hstatus.symm.trans hhalt

/-- A running engine whose pc has no whole pair before it halts (40_execution_engine.md R54). -/
theorem step_of_length_le {s : State} (hrun : s.status = .running) (hlen : s.tape.length ≤ s.pc + 1) :
    step s = .next (halt s) :=
  step_of_fetchDecode_none hrun ((fetchDecode_eq_none_iff s).mpr hlen)

/-- Settles O22: nothing decodes exactly when pc + 1 reaches LEN, which it always does on the empty tape. -/
theorem theHaltingTestEndsTheRun : Obligations.TheHaltingTestEndsTheRun := by
  refine ⟨fun _ => step_of_length_le, fun s t h hhalt => ?only, fun s hrun htape => ?empty⟩
  case only => exact (fetchDecode_eq_none_iff s).mp (halt_of_step_halted h hhalt).1
  case empty => exact step_of_length_le hrun (by simp [htape])

/-- Settles O23: the fetched cells are cells of the tape; half a pair has its second cell past the end. -/
theorem theFetchStaysInsideTheTape : Obligations.TheFetchStaysInsideTheTape := by
  refine ⟨fun s p h => ?inside, fun s => fetchPair_eq_none_iff s.tape s.pc, fun s opc hrun _ hnone => ?half⟩
  case inside =>
    have hlen : ¬ s.tape.length ≤ s.pc + 1 := fun hle => by
      cases h.symm.trans ((fetchPair_eq_none_iff s.tape s.pc).mpr hle)
    exact ⟨by omega, (fetch_eq_some_iff s p).mp h⟩
  case half => exact step_of_length_le hrun ((cellAt_eq_none_iff _ s).mp hnone)

/-- Settles O26: a taken jump lands on a literal, which is at most 7; the rest is O25. -/
theorem jumpsReachOnlyTheFirstEightCells : Obligations.JumpsReachOnlyTheFirstEightCells := by
  intro s t h hrun hpc
  obtain ⟨k, -, hk⟩ | ⟨-, hadvance⟩ := (pcAdvancesByTwoUnlessAJumpIsTaken s t h).1 hrun
  · have hlt := k.isLt
    omega
  · exact hadvance

/-- From a state that is not RUNNING no run makes a step (40_execution_engine.md R53). -/
theorem runFor_succ_ne_next {s : State} (hstop : s.status ≠ .running) (k : Nat) (u : State) :
    runFor (k + 1) s ≠ .next u := fun h => by
  obtain ⟨v, hv, -⟩ := (runFor_succ_eq_next_iff k s u).mp h
  exact hstop (step_cases hv).1

/-- A run goes on from where a shorter run has come to. -/
theorem runFor_add_of_next {j : Nat} {s t : State} (h : runFor j s = .next t) (k : Nat) :
    runFor (j + k) s = runFor k t := by
  rw [runFor_add, h, continueRun]

/-- Settles O27: a longer run goes through the stopped state, which has no step. -/
theorem statusChangesAtMostOnce : Obligations.StatusChangesAtMostOnce := by
  refine ⟨fun j s t h hstop k u => ?_, fun _ => step_of_halted, fun _ => step_of_faulted⟩
  rw [Nat.add_assoc, runFor_add_of_next h]
  exact runFor_succ_ne_next hstop k u

/-! The exception (60_exceptions.md) -/

/-- Settles O28: a reserved pair is rejected for its combo operand, and the engine raises that cause. -/
theorem reservedPairsRaiseADecodeError : Obligations.ReservedPairsRaiseADecodeError :=
  fun _ opc hrun hfetch hopc =>
    step_of_rejected hrun hfetch ((decodeCells_eq_rejected_iff opc 7 _).mpr ⟨rfl, rfl, hopc⟩)

/-- What the engine rejects, it rejects for its combo operand (60_exceptions.md R81). -/
theorem cause_of_fetchDecode_rejected {s : State} {cause : DecodeCause}
    (hd : fetchDecode s = some (.rejected cause)) : cause = .invalidComboOperand := by
  obtain ⟨⟨opc, opd⟩, -, hrejected⟩ := (fetchDecode_eq_some_iff s _).mp hd
  exact ((decodeCells_eq_rejected_iff opc opd cause).mp hrejected).1

/-- Settles O30: the step is a raise, of the one cause there is. -/
theorem aRaiseIsPrecise : Obligations.ARaiseIsPrecise := by
  intro s t h hfault
  obtain ⟨cause, hd, rfl⟩ := raise_of_step_faulted h hfault
  obtain rfl := cause_of_fetchDecode_rejected hd
  rfl

/-- A step on a tape without reserved pairs is no raise (60_exceptions.md R80). -/
theorem step_status_of_noReservedPair {s t : State} (htape : NoReservedPair s.tape) (h : step s = .next t) :
    t.status ≠ .faulted := fun hfault => by
  obtain ⟨cause, hd, -⟩ := raise_of_step_faulted h hfault
  obtain ⟨⟨opc, opd⟩, hfetch, hrejected⟩ := (fetchDecode_eq_some_iff s _).mp hd
  obtain ⟨i, hok⟩ := htape s.pc opc opd hfetch
  cases hok.symm.trans hrejected

/-- Settles O31: steps keep the tape, and none of them raises. -/
theorem tapesWithoutReservedPairsNeverFault : Obligations.TapesWithoutReservedPairsNeverFault := by
  intro s htape hstatus k j _ t hrun
  refine (runFor_keeps (P := fun u => NoReservedPair u.tape ∧ u.status ≠ .faulted) ?_ ⟨htape, hstatus⟩ hrun).2
  intro u v ⟨hu, _⟩ hstep
  exact ⟨(step_keeps_tape hstep).symm ▸ hu, step_status_of_noReservedPair hu hstep⟩

end Sys2Proof.Machine

/-! The invariant (10_state.md sections 4 and 5), the launch and what the host reads (70_reset_and_hazards.md). -/
namespace Sys2Proof.Machine

/-- The halt transition keeps the invariant: the halting test that led to it is what `haltedRecord` asks. -/
theorem Inv.halt {s : State} (hinv : Inv s) (hrun : s.status = .running) (hd : fetchDecode s = none) :
    Inv (halt s) where
  lenEven := hinv.lenEven
  pcBound := hinv.pcBound
  runningRecord := nofun
  haltedRecord _ :=
    let ⟨hcause, hip⟩ := hinv.runningRecord hrun
    ⟨hcause, hip, (fetchDecode_eq_none_iff s).mp hd⟩
  faultedRecord := nofun

/-- A raise keeps the invariant: it writes the record that `faultedRecord` asks, and the tape keeps the pair. -/
theorem Inv.raiseDecodeError {s : State} {cause : DecodeCause} (hinv : Inv s)
    (hd : fetchDecode s = some (.rejected cause)) : Inv (raiseDecodeError cause s.pc s) where
  lenEven := hinv.lenEven
  pcBound := hinv.pcBound
  runningRecord := nofun
  haltedRecord := nofun
  faultedRecord _ := by
    obtain rfl := cause_of_fetchDecode_rejected hd
    exact ⟨rfl, rfl, (fetchDecode_congr rfl rfl).trans hd⟩

/-- An executed instruction leaves pc inside the tape, at its end, or at a literal (10_state.md R21(a)). -/
theorem exec_pc_le {i : Instr} {s t : State} (hd : fetchDecode s = some (.ok i)) (h : exec i s = .next t) :
    t.pc ≤ max s.tape.length 7 := by
  have hinside := lt_of_fetchDecode hd
  obtain ⟨k, -, hk⟩ | ⟨-, hadvance⟩ := exec_pc_cases h
  · have hlt := k.isLt
    omega
  · omega

/-- An executed instruction keeps the invariant: it stays RUNNING with the record as it was. -/
theorem Inv.exec {i : Instr} {s t : State} (hinv : Inv s) (hrun : s.status = .running)
    (hd : fetchDecode s = some (.ok i)) (h : exec i s = .next t) : Inv t := by
  obtain ⟨htape, hstatus, hcause, hip⟩ := exec_keeps_control h
  have hrunning : t.status = .running := hstatus.trans hrun
  exact {
    lenEven := htape.symm ▸ hinv.lenEven
    pcBound := htape.symm ▸ exec_pc_le hd h
    runningRecord := fun _ => hcause.symm ▸ hip.symm ▸ hinv.runningRecord hrun
    haltedRecord := fun hhalt => by cases hrunning.symm.trans hhalt
    faultedRecord := fun hfault => by cases hrunning.symm.trans hfault }

/-- Settles O36: by the three kinds of step. -/
theorem everyStepKeepsTheInvariant : Obligations.EveryStepKeepsTheInvariant := by
  intro s t hinv h
  obtain ⟨hrun, ⟨hd, rfl⟩ | ⟨cause, hd, rfl⟩ | ⟨i, hd, hexec⟩⟩ := step_cases h
  · exact hinv.halt hrun hd
  · exact hinv.raiseDecodeError hd
  · exact hinv.exec hrun hd hexec

/-- The form of a tape is its even length (70_reset_and_hazards.md R97(b)). -/
theorem wf_iff_length_even (tape : Memory) : tape.wf = true ↔ tape.length % 2 = 0 := by
  simp [Memory.wf]

/-- A tape of even length is launched (70_reset_and_hazards.md R96). -/
theorem launch_of_even (a0 b0 c0 : Nat) {tape : Memory} (heven : tape.length % 2 = 0) :
    launch a0 b0 c0 tape = .next (State.launched a0 b0 c0 tape) :=
  if_pos ((wf_iff_length_even tape).mpr heven)

/-- A tape of odd length is refused (70_reset_and_hazards.md R98). -/
theorem launch_of_not_even (a0 b0 c0 : Nat) {tape : Memory} (hodd : tape.length % 2 ≠ 0) :
    launch a0 b0 c0 tape = .refused .oddTapeLength :=
  if_neg fun hwf => hodd ((wf_iff_length_even tape).mp hwf)

/-- Settles O32: the two answers of `launch`, by the parity of LEN. -/
theorem launchMakesTheStateOfTheTable : Obligations.LaunchMakesTheStateOfTheTable :=
  ⟨fun a0 b0 c0 _ heven => launch_of_even a0 b0 c0 heven,
    fun a0 b0 c0 _ hodd => launch_of_not_even a0 b0 c0 (by omega)⟩

/-- Settles O33: reset is the launched state of the empty tape, whose length is even. -/
theorem resetIsTheEmptyLaunch : Obligations.ResetIsTheEmptyLaunch :=
  ⟨launch_of_even 0 0 0 rfl, State.launched_pc 0 0 0 [], State.launched_out 0 0 0 [], State.launched_status 0 0 0 [],
    State.launched_faultCause 0 0 0 [], State.launched_faultIp 0 0 0 []⟩

/-- A launched state is RUNNING at 0 with no fault record, so it has the invariant (10_state.md R24). -/
theorem inv_launched (a0 b0 c0 : Nat) {tape : Memory} (heven : tape.length % 2 = 0) :
    Inv (State.launched a0 b0 c0 tape) where
  lenEven := heven
  pcBound := Nat.zero_le _
  runningRecord _ := ⟨rfl, rfl⟩
  haltedRecord := nofun
  faultedRecord := nofun

/-- Settles O37: a launch that answers a state had an even tape, and reset is such a launch. -/
theorem launchHasTheInvariant : Obligations.LaunchHasTheInvariant := by
  refine ⟨fun a0 b0 c0 tape s h => ?_, inv_launched 0 0 0 rfl⟩
  by_cases heven : tape.length % 2 = 0
  · cases (launch_of_even a0 b0 c0 heven).symm.trans h
    exact inv_launched a0 b0 c0 heven
  · cases (launch_of_not_even a0 b0 c0 heven).symm.trans h

/-- Settles O34: by STATUS, the one thing on which the three readings depend. -/
theorem theResultIsReadOnlyAtAHalt : Obligations.TheResultIsReadOnlyAtAHalt := by
  intro s r
  cases hstatus : s.status with
  | running => simp [State.result, State.diagnostics, State.faultReport, hstatus]
  | halted => simp [State.result, State.diagnostics, State.faultReport, hstatus, eq_comm]
  | faulted =>
    refine ⟨by simp [State.result, hstatus], by simp [State.diagnostics, hstatus, eq_comm], fun cause ip => ?_⟩
    cases hcause : s.faultCause <;> cases hip : s.faultIp <;> simp [State.faultReport, hstatus, hcause, hip]

/-! The runner with fuel (40_execution_engine.md R64) -/

/-- The runner's answer is that of what is left of its fuel, in the state that the spent fuel reaches. -/
theorem runWithFuel_add_of_next {j : Nat} {s t : State} (h : runFor j s = .next t) (m : Nat) :
    runWithFuel (j + m) s = runWithFuel m t := by
  induction j generalizing s with
  | zero => cases h; rw [Nat.zero_add]
  | succ j ih =>
    obtain ⟨u, hu, hrest⟩ := (runFor_succ_eq_next_iff j s t).mp h
    rw [Nat.add_right_comm, runWithFuel_succ_of_next (j + m) hu, ih hrest]

/-- The answer of a runner that stops at a state of that STATUS. -/
def endAs (status : Status) (t : State) : RunEnd :=
  match status with
  | .halted => .halted t
  | .faulted => .faulted t
  | .running => .outOfFuel t

/-- The three answers are kept apart. -/
theorem endAs_eq_iff (p q : Status) (u t : State) : endAs p u = endAs q t ↔ p = q ∧ u = t := by
  cases p <;> cases q <;> simp [endAs]

/-- No STATUS gives the answer `stopped`. -/
theorem endAs_ne_stopped (status : Status) (u t : State) : endAs status u ≠ .stopped t := by
  cases status <;> exact nofun

/-- Without fuel, or once the machine has stopped, the answer is that of the state itself. -/
theorem runWithFuel_eq_endAs {n : Nat} {s : State} (h : s.status = .running → n = 0) :
    runWithFuel n s = endAs s.status s := by
  cases hstatus : s.status with
  | running =>
    obtain rfl := h hstatus
    exact runWithFuel_zero_of_running hstatus
  | halted => exact runWithFuel_of_halted n hstatus
  | faulted => exact runWithFuel_of_faulted n hstatus

/-- A state that a run of at most n steps reaches is the runner's answer, if it is RUNNING only with no fuel left. -/
theorem runWithFuel_of_reached {j n : Nat} {s t : State} (hj : j ≤ n) (hrun : runFor j s = .next t)
    (hstop : t.status = .running → j = n) : runWithFuel n s = endAs t.status t := by
  obtain ⟨m, rfl⟩ := Nat.exists_eq_add_of_le hj
  rw [runWithFuel_add_of_next hrun]
  exact runWithFuel_eq_endAs fun h => Nat.left_eq_add.mp (hstop h)

/-- The runner always answers by such a state (40_execution_engine.md R64). -/
theorem exists_reached_of_runWithFuel (n : Nat) (s : State) :
    ∃ j t, j ≤ n ∧ runFor j s = .next t ∧ (t.status = .running → j = n) ∧
      runWithFuel n s = endAs t.status t := by
  induction n generalizing s with
  | zero => exact ⟨0, s, le_rfl, rfl, fun _ => rfl, runWithFuel_eq_endAs fun _ => rfl⟩
  | succ n ih =>
    by_cases hrunning : s.status = .running
    · obtain ⟨u, hu⟩ := exists_step_of_running hrunning
      obtain ⟨j, t, hj, hrun, hstop, hend⟩ := ih u
      exact ⟨j + 1, t, Nat.succ_le_succ hj, (runFor_succ_eq_next_iff j s t).mpr ⟨u, hu, hrun⟩,
        fun h => congrArg (· + 1) (hstop h), (runWithFuel_succ_of_next n hu).trans hend⟩
    · exact ⟨0, s, Nat.zero_le _, rfl, fun h => absurd h hrunning,
        runWithFuel_eq_endAs fun h => absurd h hrunning⟩

/-- The runner's answer of a given STATUS names exactly a reached state of that STATUS (40_execution_engine.md
R64). -/
theorem runWithFuel_eq_endAs_iff (status : Status) (n : Nat) (s t : State) :
    runWithFuel n s = endAs status t ↔
      t.status = status ∧ ∃ j, j ≤ n ∧ runFor j s = .next t ∧ (status = .running → j = n) := by
  constructor
  · intro h
    obtain ⟨j, u, hj, hrun, hstop, hend⟩ := exists_reached_of_runWithFuel n s
    obtain ⟨rfl, rfl⟩ := (endAs_eq_iff _ _ u t).mp (hend.symm.trans h)
    exact ⟨rfl, j, hj, hrun, hstop⟩
  · rintro ⟨rfl, j, hj, hrun, hstop⟩
    exact runWithFuel_of_reached hj hrun hstop

/-- A halt and a fault are found by any run within the fuel. -/
theorem runWithFuel_eq_endAs_iff_of_stopped {status : Status} (hstop : status ≠ .running) (n : Nat) (s t : State) :
    runWithFuel n s = endAs status t ↔ t.status = status ∧ ∃ j, j ≤ n ∧ runFor j s = .next t := by
  simp [runWithFuel_eq_endAs_iff, hstop]

/-- More fuel does not change a halt or a fault. -/
theorem runWithFuel_add_eq_endAs {status : Status} (hstop : status ≠ .running) {n : Nat} {s t : State}
    (h : runWithFuel n s = endAs status t) (m : Nat) : runWithFuel (n + m) s = endAs status t := by
  obtain ⟨hstatus, j, hj, hrun⟩ := (runWithFuel_eq_endAs_iff_of_stopped hstop n s t).mp h
  exact (runWithFuel_eq_endAs_iff_of_stopped hstop (n + m) s t).mpr
    ⟨hstatus, j, Nat.le_add_right_of_le hj, hrun⟩

/-- Settles O35: each of the three answers by `runWithFuel_eq_endAs_iff`; `stopped` is none of them. -/
theorem theRunnerKeepsItsThreeOutcomesApart : Obligations.TheRunnerKeepsItsThreeOutcomesApart := by
  intro n s t
  have hhalted : Status.halted ≠ .running := nofun
  have hfaulted : Status.faulted ≠ .running := nofun
  refine ⟨runWithFuel_eq_endAs_iff_of_stopped hhalted n s t, runWithFuel_eq_endAs_iff_of_stopped hfaulted n s t,
    ?outOfFuel, ?noOther, runWithFuel_add_eq_endAs hhalted, runWithFuel_add_eq_endAs hfaulted⟩
  case outOfFuel =>
    refine (runWithFuel_eq_endAs_iff .running n s t).trans (and_congr_right fun _ => ?_)
    exact ⟨fun ⟨_, _, hrun, hspent⟩ => hspent rfl ▸ hrun, fun hrun => ⟨n, le_rfl, hrun, fun _ => rfl⟩⟩
  case noOther =>
    obtain ⟨_, u, -, -, -, hend⟩ := exists_reached_of_runWithFuel n s
    exact hend ▸ endAs_ne_stopped u.status u t

end Sys2Proof.Machine

/-! Scope (00_scope.md section 7): shr, xor and the bit length. -/
namespace Sys2Proof.Machine

/-- Two shifts are one by the sum of their amounts (00_scope.md R10). -/
theorem shr_shr (v m n : Nat) : shr (shr v m) n = shr v (m + n) := by
  rw [shr_eq_div, shr_eq_div, shr_eq_div, Nat.div_div_eq_div_mul, pow_add]

/-- Everything is shifted out exactly when the amount reaches the bit length (00_scope.md R10). -/
theorem shr_eq_zero_iff (v n : Nat) : shr v n = 0 ↔ bl v ≤ n := by
  rw [shr_eq_div, bl_le_iff, Nat.div_eq_zero_iff_lt (Nat.two_pow_pos n)]

/-- A shift by 0 is no change (00_scope.md R10). -/
theorem shr_zero (v : Nat) : shr v 0 = v := rfl

/-- Settles O1: the definition is `shr_eq_div`; bit i of a shift is what a further shift by i leaves. -/
theorem shiftRightIsFloorDivision : Obligations.ShiftRightIsFloorDivision := by
  intro v n
  refine ⟨shr_eq_div v n, fun i => ?bits, shr_zero v, shr_eq_zero_iff v n, Nat.zero_shiftRight n, shr_le v n,
    fun m => shr_shr v m n⟩
  case bits => rw [← shr_eq_div, ← shr_eq_div, shr_shr, Nat.add_comm]

/-- A bit of the exclusive or is 1 when exactly one of the two bits is. -/
theorem toNat_xor_eq_add_mod_two (p q : Bool) : (p ^^ q).toNat = (p.toNat + q.toNat) % 2 := by
  cases p <;> cases q <;> rfl

/-- Bit i of xor from bit i of each side (00_scope.md R11). -/
theorem xorNat_bit (a b i : Nat) : xorNat a b / 2 ^ i % 2 = (a / 2 ^ i % 2 + b / 2 ^ i % 2) % 2 := by
  simp only [← Nat.toNat_testBit, xorNat, Nat.testBit_xor, toNat_xor_eq_add_mod_two]

/-- The bit length grows with the value (00_scope.md section 6). -/
theorem bl_mono {u v : Nat} (h : u ≤ v) : bl u ≤ bl v :=
  (bl_le_iff u _).mpr (h.trans_lt ((bl_le_iff v _).mp le_rfl))

/-- xor has no bit above those of its two sides (00_scope.md R11). -/
theorem bl_xorNat_le (a b : Nat) : bl (xorNat a b) ≤ max (bl a) (bl b) :=
  (bl_le_iff _ _).mpr <| Nat.xor_lt_two_pow ((bl_le_iff a _).mp (le_max_left _ _))
    ((bl_le_iff b _).mp (le_max_right _ _))

/-- A cell has at most three bits (00_scope.md R7). -/
theorem bl_cell_le_three (k : Cell) : bl k.toNat ≤ 3 := (bl_le_iff _ 3).mpr k.isLt

/-- Settles O2: the definition is `xorNat_bit`, the rest are the laws of the bitwise exclusive or. -/
theorem xorIsBitwiseExclusiveOr : Obligations.XorIsBitwiseExclusiveOr :=
  fun a b => ⟨xorNat_bit a b, Nat.xor_zero a, Nat.xor_self a, Nat.xor_comm a b, Nat.xor_assoc a b, bl_xorNat_le a b⟩

end Sys2Proof.Machine

/-! The read and write table (10_state.md R15): the value that an instruction writes and the cells that it appends, each
a function of the registers that it reads. -/
namespace Sys2Proof.Machine

/-- The value an instruction writes into its register; 0 for the two that write none (10_state.md R15). -/
def writtenValue (i : Instr) (s : State) : Nat :=
  match i with
  | .adv f => shr s.a (comboValue f s)
  | .bxl k => xorNat s.b k.toNat
  | .bst f => (mod8 (comboValue f s)).toNat
  | .jnz _ => 0
  | .bxc => xorNat s.b s.c
  | .out _ => 0
  | .bdv f => shr s.a (comboValue f s)
  | .cdv f => shr s.a (comboValue f s)

/-- The cells an instruction appends to OUT (44_output.md R76). -/
def appendedCells (i : Instr) (s : State) : List Cell :=
  match i with
  | .out f => [mod8 (comboValue f s)]
  | _ => []

/-- The three registers do not depend on pc. -/
@[simp] theorem readReg_advance (r : Reg) (s : State) : readReg r (advance s) = readReg r s := by
  cases r <;> rfl

@[simp] theorem readReg_jumpTo (r : Reg) (n : Nat) (s : State) : readReg r (jumpTo n s) = readReg r s := by
  cases r <;> rfl

/-- The three registers do not depend on OUT. -/
@[simp] theorem readReg_emit (r : Reg) (v : Cell) (s : State) : readReg r (emit v s) = readReg r s := by
  cases r <;> rfl

/-- A register after an instruction: the written one has `writtenValue`, the others are as they were (10_state.md
R15). -/
theorem exec_readReg {i : Instr} {s t : State} (h : exec i s = .next t) (r : Reg) :
    readReg r t = if writesReg i r then writtenValue i s else readReg r s := by
  rcases exec_cases h with ⟨_, rfl, rfl⟩ | ⟨_, rfl, rfl⟩ | ⟨_, rfl, rfl⟩ | ⟨_, rfl, rfl⟩ | ⟨rfl, rfl⟩ |
    ⟨_, rfl, rfl⟩ | ⟨_, rfl, rfl⟩ | ⟨_, rfl, rfl⟩
  case inr.inr.inr.inl => split <;> simp [writesReg]
  all_goals simp [divideInto, setB, readReg_writeReg, writesReg, writtenValue, literalValue]

/-- A register that the table does not name stays (10_state.md R15). -/
theorem readReg_of_not_writesReg {i : Instr} {s t : State} (h : exec i s = .next t) {r : Reg}
    (hr : writesReg i r = false) : readReg r t = readReg r s := by
  rw [exec_readReg h r, hr, if_neg Bool.false_ne_true]

/-- OUT after an instruction (44_output.md R76). -/
theorem exec_out_append {i : Instr} {s t : State} (h : exec i s = .next t) : t.out = s.out ++ appendedCells i s := by
  rcases exec_cases h with ⟨_, rfl, rfl⟩ | ⟨_, rfl, rfl⟩ | ⟨_, rfl, rfl⟩ | ⟨_, rfl, rfl⟩ | ⟨rfl, rfl⟩ |
    ⟨_, rfl, rfl⟩ | ⟨_, rfl, rfl⟩ | ⟨_, rfl, rfl⟩
  case inr.inr.inr.inl => split <;> simp [appendedCells]
  all_goals simp [divideInto, setB, appendedCells]

/-- Only out appends (44_output.md R76). -/
theorem appendedCells_of_ne_out {i : Instr} (hne : ∀ f, i ≠ .out f) (s : State) : appendedCells i s = [] := by
  cases i with
  | out f => exact absurd rfl (hne f)
  | _ => rfl

/-- The value of a combo operand depends on the register that it names, if any (40_execution_engine.md R58). -/
theorem comboValue_congr {f : Combo} {s s' : State} (h : ∀ r, f = .reg r → readReg r s' = readReg r s) :
    comboValue f s' = comboValue f s := by
  cases f with
  | lit k => rfl
  | reg r => exact h r rfl

/-- What is written depends on the registers read alone (10_state.md R15). -/
theorem writtenValue_congr {i : Instr} {s s' : State}
    (h : ∀ r, readsReg i r = true → readReg r s' = readReg r s) : writtenValue i s' = writtenValue i s := by
  cases i with
  | adv f | bdv f | cdv f =>
    exact congrArg₂ shr (h .A rfl) (comboValue_congr fun r hr => h r (by simp [readsReg, hr]))
  | bxl k => exact congrArg (xorNat · k.toNat) (h .B rfl)
  | bst f => exact congrArg (fun v => (mod8 v).toNat) (comboValue_congr fun r hr => h r (by simp [readsReg, hr]))
  | bxc => exact congrArg₂ xorNat (h .B rfl) (h .C rfl)
  | jnz k | out f => rfl

/-- What is appended depends on the registers read alone (10_state.md R15). -/
theorem appendedCells_congr {i : Instr} {s s' : State}
    (h : ∀ r, readsReg i r = true → readReg r s' = readReg r s) : appendedCells i s' = appendedCells i s := by
  cases i with
  | out f => exact congrArg (fun v => [mod8 v]) (comboValue_congr fun r hr => h r (by simp [readsReg, hr]))
  | _ => rfl

/-- Where an instruction goes depends on pc and the registers read alone: jnz reads A (10_state.md R15). -/
theorem exec_pc_congr {i : Instr} {s t s' t' : State} (h : exec i s = .next t) (h' : exec i s' = .next t')
    (hreads : ∀ r, readsReg i r = true → readReg r s' = readReg r s) (hpc : s'.pc = s.pc) : t'.pc = t.pc := by
  by_cases hjnz : ∃ k, i = .jnz k
  · obtain ⟨k, rfl⟩ := hjnz
    have ha : s'.a = s.a := hreads .A rfl
    have hcases := exec_jnz_pc h
    have hcases' := exec_jnz_pc h'
    omega
  · have hne : ∀ k, i ≠ .jnz k := not_exists.mp hjnz
    rw [exec_pc_of_ne_jnz hne h, exec_pc_of_ne_jnz hne h', hpc]

/-- Settles O19: the frame from `exec_readReg`, `exec_out_append` and `exec_keeps_control`, the agreement from the
three `congr` lemmas. -/
theorem instructionsReadAndWriteByTheTable : Obligations.InstructionsReadAndWriteByTheTable := by
  intro i s t h
  obtain ⟨htape, hstatus, hcause, hip⟩ := exec_keeps_control h
  refine ⟨fun r => readReg_of_not_writesReg h, fun hne => ?noOutput, htape, hstatus, hcause, hip,
    fun s' t' h' hreads => ⟨fun r hr => ?written, ?appended, exec_pc_congr h h' hreads⟩⟩
  case noOutput => rw [exec_out_append h, appendedCells_of_ne_out hne, List.append_nil]
  case written => rw [exec_readReg h, exec_readReg h', if_pos hr, if_pos hr, writtenValue_congr hreads]
  case appended =>
    exact ⟨appendedCells i s, exec_out_append h, appendedCells_congr hreads ▸ exec_out_append h'⟩

end Sys2Proof.Machine

/-! The division family (41_shift_divide.md) and bxc (42_bitwise.md). -/
namespace Sys2Proof.Machine

/-- The next state of adv, bdv or cdv when the quotient is known (41_shift_divide.md R65 to R67). -/
theorem next_divideInto_of_div {f : Combo} {s : State} {v : Nat} (d : Reg) (h : s.a / 2 ^ comboValue f s = v) :
    (.next (divideInto d f s) : StepResult) = .next (advance (writeReg d v s)) := by
  rw [divideInto, shr_eq_div, h]

/-- Division by 1 (41_shift_divide.md R65). -/
theorem div_comboValue_lit_zero (s : State) : s.a / 2 ^ comboValue (.lit 0) s = s.a := Nat.div_one s.a

/-- A value has fewer bits than its own number (41_shift_divide.md R65). -/
theorem div_comboValue_A (s : State) : s.a / 2 ^ comboValue (.reg .A) s = 0 :=
  Nat.div_eq_of_lt Nat.lt_two_pow_self

/-- An instruction that changes A is an adv (10_state.md R15). -/
theorem eq_adv_of_a_ne {i : Instr} {s t : State} (h : exec i s = .next t) (hne : t.a ≠ s.a) : ∃ f, i = .adv f := by
  cases i with
  | adv f => exact ⟨f, rfl⟩
  | _ => exact absurd (readReg_of_not_writesReg h (r := .A) rfl) hne

/-- An instruction that changes C is a cdv (10_state.md R15). -/
theorem eq_cdv_of_c_ne {i : Instr} {s t : State} (h : exec i s = .next t) (hne : t.c ≠ s.c) : ∃ f, i = .cdv f := by
  cases i with
  | cdv f => exact ⟨f, rfl⟩
  | _ => exact absurd (readReg_of_not_writesReg h (r := .C) rfl) hne

/-- A combo-kind opcode with the operand 7 faults and leaves the registers and OUT (40_execution_engine.md R59,
60_exceptions.md R83). -/
theorem step_of_operand_seven {s : State} {opc : Cell} (hrun : s.status = .running) (hf : fetch s = some (opc, 7))
    (hopc : opc = 0 ∨ opc = 2 ∨ opc = 5 ∨ opc = 6 ∨ opc = 7) :
    ∃ t, step s = .next t ∧ t.status = .faulted ∧ t.a = s.a ∧ t.b = s.b ∧ t.c = s.c :=
  ⟨_, reservedPairsRaiseADecodeError s opc hrun hf hopc, rfl, rfl, rfl, rfl⟩

/-- Settles O10: the quotient is known in each corner case; only adv writes A. -/
theorem advDividesAByAPowerOfTwo : Obligations.AdvDividesAByAPowerOfTwo := by
  refine ⟨fun f s => next_divideInto_of_div .A rfl, ?dispatch, ?reserved,
    fun s => next_divideInto_of_div .A (div_comboValue_lit_zero s),
    fun s => next_divideInto_of_div .A (div_comboValue_A s), ?shiftedOut, ?fromZero,
    fun i s t h hne => eq_adv_of_a_ne h hne, ?worked⟩
  case dispatch => exact fun s opd f hrun hf hform => step_of_ok hrun hf (withCombo_of_comboForm .adv hform)
  case reserved =>
    intro s hrun hf
    obtain ⟨t, ht, hfault, ha, -, -⟩ := step_of_operand_seven hrun hf (by decide)
    exact ⟨t, ht, hfault, ha⟩
  case shiftedOut =>
    intro f s hbl
    exact next_divideInto_of_div .A (Nat.div_eq_of_lt ((bl_le_iff _ _).mp hbl))
  case fromZero =>
    intro f s ha
    have hquotient : s.a / 2 ^ comboValue f s = s.a := by rw [ha, Nat.zero_div]
    exact next_divideInto_of_div .A hquotient
  case worked =>
    intro s ha
    have hquotient : s.a / 2 ^ comboValue (.lit 1) s = 1012 := by rw [ha, comboValue_lit]; decide
    exact next_divideInto_of_div .A hquotient

/-- Settles O11: as O10, with B as the destination. -/
theorem bdvDividesAIntoB : Obligations.BdvDividesAIntoB := by
  refine ⟨fun f s => next_divideInto_of_div .B rfl, ?dispatch, ?reserved,
    fun s => next_divideInto_of_div .B (div_comboValue_lit_zero s),
    fun s => next_divideInto_of_div .B (div_comboValue_A s), fun s => next_divideInto_of_div .B rfl, ?worked⟩
  case dispatch => exact fun s opd f hrun hf hform => step_of_ok hrun hf (withCombo_of_comboForm .bdv hform)
  case reserved =>
    intro s hrun hf
    obtain ⟨t, ht, hfault, -, hb, -⟩ := step_of_operand_seven hrun hf (by decide)
    exact ⟨t, ht, hfault, hb⟩
  case worked =>
    intro s ha hb
    have hquotient : s.a / 2 ^ comboValue (.reg .B) s = 1 := by rw [ha, comboValue_reg, readReg_B, hb]; decide
    exact next_divideInto_of_div .B hquotient

/-- Settles O12: as O10, with C as the destination; only cdv writes C. -/
theorem cdvDividesAIntoC : Obligations.CdvDividesAIntoC := by
  refine ⟨fun f s => next_divideInto_of_div .C rfl, ?dispatch, ?reserved,
    fun s => next_divideInto_of_div .C (div_comboValue_lit_zero s),
    fun s => next_divideInto_of_div .C (div_comboValue_A s), fun s => next_divideInto_of_div .C rfl,
    fun i s t h hne => eq_cdv_of_c_ne h hne, ?worked⟩
  case dispatch => exact fun s opd f hrun hf hform => step_of_ok hrun hf (withCombo_of_comboForm .cdv hform)
  case reserved =>
    intro s hrun hf
    obtain ⟨t, ht, hfault, -, -, hc⟩ := step_of_operand_seven hrun hf (by decide)
    exact ⟨t, ht, hfault, hc⟩
  case worked =>
    intro s ha hb
    have hquotient : s.a / 2 ^ comboValue (.reg .B) s = 3 := by rw [ha, comboValue_reg, readReg_B, hb]; decide
    exact next_divideInto_of_div .C hquotient

/-- The next state of bxc (42_bitwise.md R71). -/
theorem exec_bxc (s : State) : exec .bxc s = .next { s with b := xorNat s.b s.c, pc := s.pc + 2 } := rfl

/-- bxc when the exclusive or is known (42_bitwise.md R71). -/
theorem exec_bxc_of_xor {s : State} {v : Nat} (h : xorNat s.b s.c = v) :
    exec .bxc s = .next { s with b := v, pc := s.pc + 2 } := by
  rw [exec_bxc, h]

/-- Settles O15: the next state is `exec_bxc`; every operand cell is accepted and dropped. -/
theorem bxcXorsCIntoBWhateverItsOperand : Obligations.BxcXorsCIntoBWhateverItsOperand := by
  refine ⟨exec_bxc, ?dispatch, ?zero, ?equal, ?bits, ?worked⟩
  case dispatch => exact fun s opd hrun hf => step_of_ok hrun hf (withIgnored_of_lt .bxc _ opd.isLt)
  case zero =>
    intro s hc
    have hxor : xorNat s.b s.c = s.b := by rw [hc]; exact Nat.xor_zero s.b
    exact exec_bxc_of_xor hxor
  case equal =>
    intro s hbc
    exact exec_bxc_of_xor (by rw [hbc]; exact Nat.xor_self s.c)
  case bits =>
    intro s t h
    cases h
    exact bl_xorNat_le s.b s.c
  case worked =>
    intro s hb hc
    exact exec_bxc_of_xor (by rw [hb, hc]; rfl)

/-- Settles O18: both operands are read in the state before the write, so these are the defining next states. -/
theorem sameRegisterUsesTheOldValue : Obligations.SameRegisterUsesTheOldValue :=
  fun _ => ⟨rfl, rfl, rfl, rfl⟩

end Sys2Proof.Machine

/-! The Instruction Pointer (10_state.md section 5): its parity, the jump to itself, and the variant of ODD_TARGET. -/
namespace Sys2Proof.Machine

/-- The step of a state that takes a jump (43_jump.md R73). -/
theorem step_of_takesJump {s : State} {k : Cell} (h : takesJump s k) : step s = .next { s with pc := k.toNat } := by
  obtain ⟨hrun, hd, ha⟩ := h
  exact (step_of_fetchDecode_ok hrun hd).trans (exec_jnz_taken k ha)

/-- A step to a state with another parity of pc is a taken jump (10_state.md R21(b)). -/
theorem step_pc_even {s t : State} (heven : s.pc % 2 = 0) (h : step s = .next t)
    (hjump : ∀ k, takesJump s k → k.toNat % 2 = 0) : t.pc % 2 = 0 := by
  obtain ⟨hrunning, hstopped⟩ := pcAdvancesByTwoUnlessAJumpIsTaken s t h
  by_cases hrun : t.status = .running
  · obtain ⟨k, htakes, hpc⟩ | ⟨-, hpc⟩ := hrunning hrun
    · exact hpc ▸ hjump k htakes
    · omega
  · rw [hstopped hrun, heven]

/-- Settles O38: `step_pc_even`, and the taken jump for every literal, odd or even. -/
theorem pcStaysEvenUnlessAnOddJumpIsTaken : Obligations.PcStaysEvenUnlessAnOddJumpIsTaken :=
  ⟨fun _ _ heven h hjump => step_pc_even heven h hjump, fun _ _ htakes _ => step_of_takesJump htakes⟩

/-- The pair of a taken jump is the encoding of its jnz (30_encoding.md R46). -/
theorem fetchPair_of_takesJump {s : State} {k : Cell} (h : takesJump s k) : fetchPair s.tape s.pc = some (3, k) := by
  obtain ⟨⟨opc, opd⟩, hfetch, hok⟩ := (fetchDecode_eq_some_iff s _).mp h.2.1
  obtain ⟨-, hencode | ⟨hbxc, -⟩⟩ := decodedPairsReencode opc opd _ hok
  · cases hencode
    exact hfetch
  · cases hbxc

/-- Settles O39: at an even pc a taken jump is one of those of which `EvenJumps` speaks; steps keep the tape. -/
theorem evenJumpTapesKeepPcEven : Obligations.EvenJumpTapesKeepPcEven := by
  intro k s t hjumps heven hrun
  refine runFor_keeps (P := fun u => u.pc % 2 = 0 ∧ EvenJumps u.tape) ?_ ⟨heven, hjumps⟩ hrun
  intro u v ⟨hu, hju⟩ hstep
  exact ⟨step_pc_even hu hstep fun k htakes => hju u.pc k hu (fetchPair_of_takesJump htakes),
    (step_keeps_tape hstep).symm ▸ hju⟩

/-- Settles O43: the step from the state leads back to it, as pc already has the literal's value. -/
theorem aJumpToItselfNeverEnds : Obligations.AJumpToItselfNeverEnds := by
  intro s k htakes hk n
  have hself : step s = .next s := (step_of_takesJump htakes).trans (by rw [hk])
  induction n with
  | zero => rfl
  | succ n ih => exact (runFor_succ_eq_next_iff n s s).mpr ⟨s, hself, ih⟩

/-- The odd jump that the strict variant looks for is a taken jnz with an odd literal (20_memory.md R31). -/
theorem oddJump_eq_some_iff (s : State) (n : Nat) :
    oddJump s = some n ↔ ∃ k, takesJump s k ∧ k.toNat % 2 = 1 ∧ k.toNat = n := by
  unfold oddJump
  split
  · rename_i k hrun hd
    simp [takesJump, hrun, hd, jumpCondition, and_assoc]
  · rename_i hother
    simp only [reduceCtorEq, false_iff, not_exists]
    exact fun k htakes => hother k htakes.1.1 htakes.1.2.1

/-- There is no such jump exactly when every taken jump is even. -/
theorem oddJump_eq_none_iff (s : State) : oddJump s = none ↔ ∀ k, takesJump s k → k.toNat % 2 = 0 := by
  simp only [Option.eq_none_iff_forall_ne_some, ne_eq, oddJump_eq_some_iff]
  constructor
  · intro h k htakes
    by_contra hne
    exact h k.toNat ⟨k, htakes, by omega, rfl⟩
  · rintro h n ⟨k, htakes, hodd, -⟩
    have heven := h k htakes
    omega

/-- The strict variant faults on an odd jump (20_memory.md R31). -/
theorem stepUnder_faults_of_some {s : State} {n : Nat} (h : oddJump s = some n) :
    stepUnder .faults s = .fault (.oddJumpTarget n) := by
  simp [stepUnder, h]

/-- On every other step the strict variant is the architecture (20_memory.md R31). -/
theorem stepUnder_faults_of_none {s : State} (h : oddJump s = none) : stepUnder .faults s = step s := by
  simp [stepUnder, h]

/-- Settles O45: by whether the step is an odd jump. -/
theorem theStrictVariantKeepsPcEven : Obligations.TheStrictVariantKeepsPcEven := by
  refine ⟨fun s => rfl, fun s t heven h => ?even, fun s k htakes hodd => ?faults, fun s hjump => ?same⟩
  case even =>
    cases hodd : oddJump s with
    | some n => cases (stepUnder_faults_of_some hodd).symm.trans h
    | none =>
      have hstep := (stepUnder_faults_of_none hodd).symm.trans h
      exact ⟨step_pc_even heven hstep ((oddJump_eq_none_iff s).mp hodd), hstep⟩
  case faults => exact stepUnder_faults_of_some ((oddJump_eq_some_iff s _).mpr ⟨k, htakes, hodd, rfl⟩)
  case same => exact stepUnder_faults_of_none ((oddJump_eq_none_iff s).mpr hjump)

end Sys2Proof.Machine

/-! Bounds on the registers (10_state.md R16). -/
namespace Sys2Proof.Machine

/-- No instruction increases A: only adv writes it, with a shift of it (10_state.md R16(a)). -/
theorem exec_a_le {i : Instr} {s t : State} (h : exec i s = .next t) : t.a ≤ s.a := by
  have ha : t.a = if writesReg i .A then writtenValue i s else s.a := exec_readReg h .A
  cases i with
  | adv f => exact ha.trans_le (shr_le s.a _)
  | _ => exact ha.le

/-- No step increases A (10_state.md R16(a)). -/
theorem step_a_le {s t : State} (h : step s = .next t) : t.a ≤ s.a := by
  obtain ⟨-, ⟨-, rfl⟩ | ⟨cause, -, rfl⟩ | ⟨i, -, hexec⟩⟩ := step_cases h
  · exact (halt_a s).le
  · exact (raiseDecodeError_a cause s.pc s).le
  · exact exec_a_le hexec

/-- What an instruction writes has no more bits than a cell or one of the registers (10_state.md R16(b)). -/
theorem bl_writtenValue_le (i : Instr) (s : State) :
    bl (writtenValue i s) ≤ max 3 (max (bl s.a) (max (bl s.b) (bl s.c))) := by
  cases i with
  | adv f | bdv f | cdv f =>
    have hshift : bl (shr s.a (comboValue f s)) ≤ bl s.a := bl_mono (shr_le _ _)
    exact hshift.trans (by omega)
  | bxl k =>
    have hxor := bl_xorNat_le s.b k.toNat
    have hcell := bl_cell_le_three k
    exact hxor.trans (by omega)
  | bst f => exact (bl_cell_le_three (mod8 (comboValue f s))).trans (le_max_left _ _)
  | bxc => exact (bl_xorNat_le s.b s.c).trans (by omega)
  | jnz k | out f => exact Nat.zero_le _

/-- C after an instruction is C or a shift of A (10_state.md R16(b)). -/
theorem exec_bl_c_le {i : Instr} {s t : State} (h : exec i s = .next t) : bl t.c ≤ max (bl s.a) (bl s.c) := by
  have hc : t.c = if writesReg i .C then writtenValue i s else s.c := exec_readReg h .C
  cases i with
  | cdv f => exact hc ▸ (bl_mono (shr_le s.a _)).trans (le_max_left _ _)
  | _ => exact hc ▸ le_max_right _ _

/-- B after an instruction is B or what the instruction writes (10_state.md R16(b)). -/
theorem exec_bl_b_le {i : Instr} {s t : State} (h : exec i s = .next t) :
    bl t.b ≤ max 3 (max (bl s.a) (max (bl s.b) (bl s.c))) := by
  have hb : t.b = if writesReg i .B then writtenValue i s else s.b := exec_readReg h .B
  rw [hb]
  split
  · exact bl_writtenValue_le i s
  · omega

/-- The bounds of 10_state.md R16(b) after a launch with A0, B0, C0. -/
structure WithinLaunchBits (a0 b0 c0 : Nat) (s : State) : Prop where
  boundA : bl s.a ≤ bl a0
  boundB : bl s.b ≤ launchBits a0 b0 c0
  boundC : bl s.c ≤ max (bl a0) (bl c0)

/-- A launched state is within its own bounds. -/
theorem withinLaunchBits_launched (a0 b0 c0 : Nat) (tape : Memory) :
    WithinLaunchBits a0 b0 c0 (State.launched a0 b0 c0 tape) where
  boundA := le_rfl
  boundB := by rw [State.launched_b, launchBits]; omega
  boundC := le_max_right _ _

/-- An instruction stays within the bounds. -/
theorem WithinLaunchBits.exec {a0 b0 c0 : Nat} {i : Instr} {s t : State} (hs : WithinLaunchBits a0 b0 c0 s)
    (h : exec i s = .next t) : WithinLaunchBits a0 b0 c0 t := by
  obtain ⟨hA, hB, hC⟩ := hs
  have hb := exec_bl_b_le h
  have hc := exec_bl_c_le h
  exact ⟨(bl_mono (exec_a_le h)).trans hA, by unfold launchBits at *; omega, by omega⟩

/-- So does every step: a halt and a raise keep the registers. -/
theorem WithinLaunchBits.step {a0 b0 c0 : Nat} {s t : State} (hs : WithinLaunchBits a0 b0 c0 s)
    (h : step s = .next t) : WithinLaunchBits a0 b0 c0 t := by
  obtain ⟨-, ⟨-, rfl⟩ | ⟨cause, -, rfl⟩ | ⟨i, -, hexec⟩⟩ := step_cases h
  · exact ⟨hs.boundA, hs.boundB, hs.boundC⟩
  · exact ⟨hs.boundA, hs.boundB, hs.boundC⟩
  · exact hs.exec hexec

/-- Settles O40: both bounds are kept by every step, so by every run. -/
theorem registersStayWithinTheLaunchBits : Obligations.RegistersStayWithinTheLaunchBits := by
  refine ⟨fun k s t hrun => ?shrinks, fun k a0 b0 c0 tape t hrun => ?bounds⟩
  case shrinks =>
    exact runFor_keeps (P := fun u => u.a ≤ s.a) (fun _ _ hu hstep => (step_a_le hstep).trans hu) le_rfl hrun
  case bounds =>
    obtain ⟨hA, hB, hC⟩ := runFor_keeps (fun _ _ hu hstep => hu.step hstep)
      (withinLaunchBits_launched a0 b0 c0 tape) hrun
    exact ⟨hA, hB, hC⟩

end Sys2Proof.Machine

/-! OUT over a run (44_output.md): it grows by what out appends, and nothing reads it. -/
namespace Sys2Proof.Machine

/-- One unit for a step that executes an out (44_output.md R77). -/
theorem executesOut_of_fetchDecode {s : State} {i : Instr} (hrun : s.status = .running)
    (hd : fetchDecode s = some (.ok i)) :
    (if executesOut s then 1 else 0) = (appendedCells i s).length := by
  cases i <;> simp [executesOut, hrun, hd, appendedCells]

/-- A state that decodes no instruction executes no out. -/
theorem executesOut_eq_false {s : State} (h : ∀ i, fetchDecode s ≠ some (.ok i)) : executesOut s = false := by
  unfold executesOut
  split
  · rename_i f _ hd
    exact absurd hd (h (.out f))
  · rfl

/-- What one step puts at the end of OUT (44_output.md R77). -/
theorem step_out_append {s t : State} (h : step s = .next t) :
    ∃ emitted, t.out = s.out ++ emitted ∧ emitted.length = if executesOut s then 1 else 0 := by
  obtain ⟨hrun, ⟨hd, rfl⟩ | ⟨cause, hd, rfl⟩ | ⟨i, hd, hexec⟩⟩ := step_cases h
  · exact ⟨[], by simp, by simp [executesOut_eq_false (s := s) (by simp [hd])]⟩
  · exact ⟨[], by simp, by simp [executesOut_eq_false (s := s) (by simp [hd])]⟩
  · exact ⟨appendedCells i s, exec_out_append hexec, (executesOut_of_fetchDecode hrun hd).symm⟩

/-- The count of a run is that of its first step and of the rest (44_output.md R77). -/
theorem outsExecuted_succ_of_next {s t : State} (k : Nat) (h : step s = .next t) :
    outsExecuted (k + 1) s = (if executesOut s then 1 else 0) + outsExecuted k t := by
  rw [outsExecuted, h]

/-- Settles O41: by induction on the run, step by step. -/
theorem outGrowsByOneCellPerOutExecuted : Obligations.OutGrowsByOneCellPerOutExecuted := by
  intro k
  induction k with
  | zero =>
    intro s t hrun
    cases hrun
    exact ⟨[], (List.append_nil _).symm, rfl⟩
  | succ k ih =>
    intro s t hrun
    obtain ⟨u, hu, hrest⟩ := (runFor_succ_eq_next_iff k s t).mp hrun
    obtain ⟨first, hfirst, hlength⟩ := step_out_append hu
    obtain ⟨others, hothers, hcount⟩ := ih u t hrest
    refine ⟨first ++ others, by rw [hothers, hfirst, List.append_assoc], ?_⟩
    rw [List.length_append, hlength, hcount, outsExecuted_succ_of_next k hu]

/-- No operand reads OUT (10_state.md R18). -/
@[simp] theorem comboValue_withEarlierOut (f : Combo) (o : List Cell) (s : State) :
    comboValue f (withEarlierOut o s) = comboValue f s :=
  comboValue_congr fun r _ => by cases r <;> rfl

/-- The division family neither reads nor writes OUT. -/
theorem divideInto_withEarlierOut (d : Reg) (f : Combo) (o : List Cell) (s : State) :
    divideInto d f (withEarlierOut o s) = withEarlierOut o (divideInto d f s) := by
  rw [divideInto, comboValue_withEarlierOut]
  cases d <;> rfl

/-- No instruction depends on the cells that OUT holds (10_state.md R18). -/
theorem exec_withEarlierOut (i : Instr) (o : List Cell) (s : State) :
    exec i (withEarlierOut o s) = mapNext (withEarlierOut o) (exec i s) := by
  cases i with
  | adv f => exact congrArg Host.Outcome.next (divideInto_withEarlierOut .A f o s)
  | bxl k => rfl
  | bst f => rw [exec_bst, exec_bst, comboValue_withEarlierOut]; rfl
  | jnz k =>
    by_cases ha : s.a = 0
    · rw [exec_jnz_not_taken k ha]; exact exec_jnz_not_taken k ha
    · rw [exec_jnz_taken k ha]; exact exec_jnz_taken k ha
  | bxc => rfl
  | out f =>
    rw [exec_out, exec_out, comboValue_withEarlierOut]
    simp [withEarlierOut, mapNext]
  | bdv f => exact congrArg Host.Outcome.next (divideInto_withEarlierOut .B f o s)
  | cdv f => exact congrArg Host.Outcome.next (divideInto_withEarlierOut .C f o s)

/-- No step depends on the cells that OUT holds (10_state.md R18). -/
theorem step_withEarlierOut (o : List Cell) (s : State) :
    step (withEarlierOut o s) = mapNext (withEarlierOut o) (step s) := by
  have hfetch : fetchDecode (withEarlierOut o s) = fetchDecode s := fetchDecode_congr rfl rfl
  cases hstatus : s.status with
  | halted => rw [step_of_halted hstatus, step_of_halted (s := withEarlierOut o s) hstatus, mapNext]
  | faulted => rw [step_of_faulted hstatus, step_of_faulted (s := withEarlierOut o s) hstatus, mapNext]
  | running =>
    have hrun : (withEarlierOut o s).status = .running := hstatus
    match hd : fetchDecode s with
    | none =>
      rw [step_of_fetchDecode_none hstatus hd, step_of_fetchDecode_none hrun (hfetch.trans hd)]
      rfl
    | some (.rejected cause) =>
      rw [step_of_fetchDecode_rejected hstatus hd, step_of_fetchDecode_rejected hrun (hfetch.trans hd)]
      rfl
    | some (.ok i) =>
      rw [step_of_fetchDecode_ok hstatus hd, step_of_fetchDecode_ok hrun (hfetch.trans hd), exec_withEarlierOut]

/-- Settles O42: by induction on the run; what a step answers is changed in OUT alone. -/
theorem outIsNeverRead : Obligations.OutIsNeverRead := by
  intro k o
  induction k with
  | zero => exact fun s => rfl
  | succ k ih =>
    intro s
    rw [runFor_succ, runFor_succ, step_withEarlierOut]
    cases step s with
    | next t => exact ih t
    | fault r => rfl
    | refused r => rfl

end Sys2Proof.Machine

/-! Implementations of fixed width (10_state.md R16(c)): each step commutes with reading the W-bit state as a state. -/
namespace Sys2Proof.Machine

/-- A combo operand has the same value in both machines, as three bits hold every literal (10_state.md R16(c)). -/
theorem fixedValue_toNat {w : Nat} (hw : 3 ≤ w) (f : Combo) (x : FixedState w) :
    (fixedValue f x).toNat = comboValue f x.toState := by
  cases f with
  | lit k => exact BitVec.toNat_setWidth_of_le hw
  | reg r => cases r <;> rfl

/-- The shifter agrees with shr at every amount: from w on, both give 0 (10_state.md R16(c)). -/
theorem fixedShift_toNat {w : Nat} (v n : BitVec w) : (fixedShift v n).toNat = shr v.toNat n.toNat := by
  rw [fixedShift, BitVec.ushiftRight_eq', BitVec.toNat_ushiftRight, shr]

/-- What adv, bdv and cdv write is the same number in both machines. -/
theorem divideInto_toState {w : Nat} (hw : 3 ≤ w) (d : Reg) (f : Combo) (x : FixedState w) :
    divideInto d f x.toState = advance (writeReg d (fixedShift x.a (fixedValue f x)).toNat x.toState) := by
  rw [fixedShift_toNat, fixedValue_toNat hw]
  rfl

/-- The low three bits of an operand are the same cell in both machines. -/
theorem mod8_comboValue_toState {w : Nat} (hw : 3 ≤ w) (f : Combo) (x : FixedState w) :
    mod8 (comboValue f x.toState) = (fixedValue f x).setWidth 3 := by
  rw [← fixedValue_toNat hw]
  exact BitVec.eq_of_toNat_eq (by rw [mod8_toNat, BitVec.toNat_setWidth])

/-- The condition of jnz is the same in both machines. -/
theorem toState_a_eq_zero_iff {w : Nat} (x : FixedState w) : x.toState.a = 0 ↔ x.a = 0 :=
  BitVec.toNat_inj (x := x.a) (y := 0)

/-- The effect of an instruction is the same in both machines (10_state.md R16(c)). -/
theorem exec_toState {w : Nat} (hw : 3 ≤ w) (i : Instr) (x : FixedState w) :
    exec i x.toState = .next (fixedExec i x).toState := by
  cases i with
  | adv f => exact congrArg Host.Outcome.next (divideInto_toState hw .A f x)
  | bdv f => exact congrArg Host.Outcome.next (divideInto_toState hw .B f x)
  | cdv f => exact congrArg Host.Outcome.next (divideInto_toState hw .C f x)
  | bxl k =>
    have hxor : xorNat x.toState.b k.toNat = (x.b ^^^ k.setWidth w).toNat := by
      rw [BitVec.toNat_xor, BitVec.toNat_setWidth_of_le hw]
      rfl
    rw [exec_bxl, hxor]
    rfl
  | bxc =>
    have hxor : xorNat x.toState.b x.toState.c = (x.b ^^^ x.c).toNat := (BitVec.toNat_xor x.b x.c).symm
    rw [exec_bxc, hxor]
    rfl
  | bst f =>
    have hlow : comboValue f x.toState % 8 = (((fixedValue f x).setWidth 3).setWidth w).toNat := by
      rw [BitVec.toNat_setWidth_of_le hw, ← mod8_comboValue_toState hw, mod8_toNat]
    rw [exec_bst, hlow]
    rfl
  | out f =>
    rw [exec_out, mod8_comboValue_toState hw]
    rfl
  | jnz k =>
    by_cases ha : x.a = 0
    · rw [exec_jnz_not_taken k ((toState_a_eq_zero_iff x).mpr ha), fixedExec, if_pos ha]
      rfl
    · rw [exec_jnz_taken k (mt (toState_a_eq_zero_iff x).mp ha), fixedExec, if_neg ha]
      rfl

/-- Settles O46: both machines fetch and decode the same pair, and execute it alike. -/
theorem fixedWidthStepIsTheArchitecturesStep : Obligations.FixedWidthStepIsTheArchitecturesStep := by
  intro w x hw
  have hstatus' : x.toState.status = x.status := rfl
  cases hstatus : x.status with
  | halted => simp [fixedStep, hstatus, fixedAnswer, step_of_halted (hstatus'.trans hstatus)]
  | faulted => simp [fixedStep, hstatus, fixedAnswer, step_of_faulted (hstatus'.trans hstatus)]
  | running =>
    have hrun : x.toState.status = .running := hstatus'.trans hstatus
    cases hfetch : fetchPair x.tape x.pc with
    | none =>
      rw [step_of_fetchDecode_none hrun (congrArg (Option.map _) hfetch)]
      simp [fixedStep, hstatus, hfetch, fixedAnswer, FixedState.toState, halt]
    | some p =>
      cases hd : decodeCells p.1 p.2 with
      | rejected cause =>
        rw [step_of_rejected hrun hfetch hd]
        simp [fixedStep, hstatus, hfetch, hd, fixedAnswer, FixedState.toState, raiseDecodeError]
      | ok i =>
        rw [step_of_ok hrun hfetch hd, exec_toState hw]
        simp [fixedStep, hstatus, hfetch, hd, fixedAnswer]

/-- Runs of any length agree, by O46 at each step (10_state.md R16(c)). -/
theorem fixedAnswer_fixedRun {w : Nat} (hw : 3 ≤ w) (k : Nat) (x : FixedState w) :
    fixedAnswer (fixedRun k x) = runFor k x.toState := by
  induction k generalizing x with
  | zero => rfl
  | succ k ih =>
    rw [runFor_succ, ← fixedWidthStepIsTheArchitecturesStep w x hw, fixedRun]
    cases fixedStep x with
    | next y => exact ih y
    | fault r => rfl
    | refused r => rfl

/-- M exceeds W exactly when three bits or one of the launch values do (10_state.md R16). -/
theorem lt_launchBits_iff (w a0 b0 c0 : Nat) :
    w < launchBits a0 b0 c0 ↔ w < 3 ∨ w < bl a0 ∨ w < bl b0 ∨ w < bl c0 := by
  simp only [launchBits, lt_max_iff]

/-- The state of the implementation right after a launch. -/
def fixedLaunched (w a0 b0 c0 : Nat) (tape : Memory) : FixedState w where
  a := BitVec.ofNat w a0
  b := BitVec.ofNat w b0
  c := BitVec.ofNat w c0
  pc := 0
  out := []
  status := .running
  faultCause := none
  faultIp := none
  tape := tape

/-- A launch with M <= W makes that state, any other is refused (10_state.md R16(c), 92_eei_decisions.md D12). -/
theorem fixedLaunch_of_even (w a0 b0 c0 : Nat) {tape : Memory} (heven : tape.length % 2 = 0) :
    fixedLaunch w a0 b0 c0 tape =
      if w < launchBits a0 b0 c0 then .refused .launchDoesNotFit else .next (fixedLaunched w a0 b0 c0 tape) := by
  simp [fixedLaunch, fixedLaunched, (wf_iff_length_even tape).mpr heven, lt_launchBits_iff, or_assoc]

/-- A value that fits is launched as it is. -/
theorem ofNat_toNat_of_bl_le {w v : Nat} (h : bl v ≤ w) : (BitVec.ofNat w v).toNat = v :=
  (BitVec.toNat_ofNat v w).trans (Nat.mod_eq_of_lt ((bl_le_iff v w).mp h))

/-- With M <= W the implementation starts in the launched state (10_state.md R24). -/
theorem fixedLaunched_toState {w a0 b0 c0 : Nat} (tape : Memory) (hfits : launchBits a0 b0 c0 ≤ w) :
    (fixedLaunched w a0 b0 c0 tape).toState = State.launched a0 b0 c0 tape := by
  simp only [launchBits, max_le_iff] at hfits
  obtain ⟨-, ha, hb, hc⟩ := hfits
  simp [fixedLaunched, FixedState.toState, State.launched, ofNat_toNat_of_bl_le ha, ofNat_toNat_of_bl_le hb,
    ofNat_toNat_of_bl_le hc, -BitVec.toNat_ofNat]

/-- Settles O47: the launch by `fixedLaunch_of_even`, the run from equal states by O46. -/
theorem fixedWidthMachinesAreIndistinguishable : Obligations.FixedWidthMachinesAreIndistinguishable := by
  intro w a0 b0 c0 tape heven
  refine ⟨fun hmisfit => ?refused, fun hfits => ?agrees⟩
  case refused => rw [fixedLaunch_of_even w a0 b0 c0 heven, if_pos hmisfit]
  case agrees =>
    have hstart := fixedLaunched_toState tape hfits
    refine ⟨fixedLaunched w a0 b0 c0 tape, ?_, ?_, fun k => ?_⟩
    · rw [fixedLaunch_of_even w a0 b0 c0 heven, if_neg (Nat.not_lt.mpr hfits)]
    · rw [launch_of_even a0 b0 c0 heven, hstart]
    · rw [fixedAnswer_fixedRun ((le_max_left _ _).trans hfits), hstart]

end Sys2Proof.Machine

/-! Loops that shrink A (70_reset_and_hazards.md R102): one pass through the body, then all passes. -/
namespace Sys2Proof.Machine

/-- The instructions from pc on: the first is the one the engine decodes, the others follow at pc + 2
(30_encoding.md R40). -/
theorem fetchDecode_of_decodeTape {s : State} {d : Decoded} {ds : List Decoded}
    (h : decodeTape (s.tape.drop s.pc) = d :: ds) :
    fetchDecode s = some d ∧ decodeTape (s.tape.drop (s.pc + 2)) = ds := by
  match hdrop : s.tape.drop s.pc with
  | [] | [_] => simp [hdrop, decodeTape] at h
  | opc :: opd :: rest =>
    rw [hdrop, decodeTape, List.cons.injEq] at h
    obtain ⟨rfl, rfl⟩ := h
    have hopc : cellAt s.pc s = some opc := by
      rw [cellAt, ← Nat.add_zero s.pc, ← List.getElem?_drop, hdrop]; rfl
    have hopd : cellAt (s.pc + 1) s = some opd := by
      rw [cellAt, ← List.getElem?_drop, hdrop]; rfl
    refine ⟨(fetchDecode_eq_some_iff s _).mpr ⟨_, fetch_of_cells hopc hopd, rfl⟩, ?_⟩
    rw [← List.drop_drop, hdrop]
    rfl

/-- A tape of even length holds one instruction for every two cells (30_encoding.md R40). -/
theorem length_decodeTape (tape : Memory) : (decodeTape tape).length = tape.length / 2 := by
  induction tape using decodeTape.induct with
  | case1 opc opd rest ih =>
    rw [decodeTape, List.length_cons, ih, List.length_cons, List.length_cons]
    omega
  | case2 | case3 => simp [decodeTape]

/-- A body instruction shifts A by what it adds to k' (70_reset_and_hazards.md R102). -/
theorem exec_a_of_shrinkBody {i : Instr} {s t : State} (hbody : shrinkBody i = true) (h : exec i s = .next t) :
    t.a = shr s.a (advShift i) := by
  have ha : t.a = if writesReg i .A then writtenValue i s else s.a := exec_readReg h .A
  match i with
  | .adv (.lit k) => exact ha
  | .adv (.reg r) | .jnz k => cases hbody
  | .bxl _ | .bst _ | .bxc | .out _ | .bdv _ | .cdv _ => exact ha

/-- A body instruction is no jnz, so pc advances (70_reset_and_hazards.md R102). -/
theorem exec_pc_of_shrinkBody {i : Instr} {s t : State} (hbody : shrinkBody i = true) (h : exec i s = .next t) :
    t.pc = s.pc + 2 :=
  exec_pc_of_ne_jnz (fun _ hjnz => by subst hjnz; cases hbody) h

/-- Running a body: A is shifted by k', pc is behind the body, and what follows it is next (70_reset_and_hazards.md
R102). -/
theorem exists_run_of_body {body : List Instr} {tail : List Decoded} {s : State} (hrun : s.status = .running)
    (hd : decodeTape (s.tape.drop s.pc) = body.map .ok ++ tail) (hbody : ∀ i ∈ body, shrinkBody i = true) :
    ∃ t, runFor body.length s = .next t ∧ t.status = .running ∧ t.tape = s.tape ∧
      t.a = shr s.a (bodyShift body) ∧ t.pc = s.pc + 2 * body.length ∧
      decodeTape (t.tape.drop t.pc) = tail := by
  induction body generalizing s with
  | nil => exact ⟨s, rfl, hrun, rfl, rfl, rfl, hd⟩
  | cons i rest ih =>
    obtain ⟨hi, hrest⟩ := List.forall_mem_cons.mp hbody
    obtain ⟨hfirst, hnext⟩ := fetchDecode_of_decodeTape hd
    obtain ⟨u, hexec⟩ := exists_exec_eq_next i s
    obtain ⟨htape, hstatus, -, -⟩ := exec_keeps_control hexec
    have hpc := exec_pc_of_shrinkBody hi hexec
    have hu : decodeTape (u.tape.drop u.pc) = rest.map .ok ++ tail := by rw [htape, hpc]; exact hnext
    obtain ⟨t, hsteps, hrunning, htape', ha, hpc', htail⟩ := ih (hstatus.trans hrun) hu hrest
    refine ⟨t, (runFor_succ_eq_next_iff _ s t).mpr ⟨u, (step_of_fetchDecode_ok hrun hfirst).trans hexec, hsteps⟩,
      hrunning, htape'.trans htape, ?shifted, ?behind, htail⟩
    case shifted =>
      rw [ha, exec_a_of_shrinkBody hi hexec, shr_shr, bodyShift, bodyShift, List.map_cons, List.sum_cons]
    case behind => rw [hpc', hpc, List.length_cons]; omega

/-- The loop of 70_reset_and_hazards.md R102: a body that shrinks A, followed by jnz 0, and nothing else. -/
structure ShrinkingLoop (tape : Memory) (body : List Instr) : Prop where
  lenEven : tape.length % 2 = 0
  decodes : decodeTape tape = body.map .ok ++ [.ok (.jnz 0)]
  shrinks : ∀ i ∈ body, shrinkBody i = true

/-- The loop has one cell pair for each body instruction and one for jnz. -/
theorem ShrinkingLoop.length_eq {tape : Memory} {body : List Instr} (hloop : ShrinkingLoop tape body) :
    tape.length = 2 * (body.length + 1) := by
  have heven := hloop.lenEven
  have hlength := length_decodeTape tape
  rw [hloop.decodes, List.length_append, List.length_map, List.length_singleton] at hlength
  omega

/-- One pass: A is shifted by k', and jnz goes back to 0 unless A has become 0 (70_reset_and_hazards.md R102). -/
theorem exists_run_of_pass {tape : Memory} {body : List Instr} {s : State} (hloop : ShrinkingLoop tape body)
    (hrun : s.status = .running) (htape : s.tape = tape) (hpc : s.pc = 0) :
    ∃ t, runFor (tape.length / 2) s = .next t ∧ t.status = .running ∧ t.tape = tape ∧
      t.a = shr s.a (bodyShift body) ∧ t.pc = if t.a = 0 then tape.length else 0 := by
  have hlength := hloop.length_eq
  have hd : decodeTape (s.tape.drop s.pc) = body.map .ok ++ [.ok (.jnz 0)] := by
    rw [htape, hpc, List.drop_zero, hloop.decodes]
  obtain ⟨u, hsteps, hrunning, hkept, ha, hupc, htail⟩ := exists_run_of_body hrun hd hloop.shrinks
  obtain ⟨hjnz, -⟩ := fetchDecode_of_decodeTape htail
  have hpass {t : State} (ht : exec (.jnz 0) u = .next t) : runFor (tape.length / 2) s = .next t := by
    have hsplit : tape.length / 2 = body.length + 1 := by omega
    rw [hsplit, runFor_add_of_next hsteps, runFor_succ_eq_next_iff]
    exact ⟨t, (step_of_fetchDecode_ok hrunning hjnz).trans ht, rfl⟩
  by_cases hzero : u.a = 0
  · refine ⟨_, hpass (exec_jnz_not_taken 0 hzero), hrunning, hkept.trans htape, ha, ?_⟩
    rw [if_pos hzero]
    show u.pc + 2 = tape.length
    omega
  · exact ⟨_, hpass (exec_jnz_taken 0 hzero), hrunning, hkept.trans htape, ha, (if_neg hzero).symm⟩

/-- A becomes 0 exactly at pass p (70_reset_and_hazards.md R102). -/
theorem shr_mul_eq_zero_iff {a0 k j : Nat} (hk : 1 ≤ k) (hj : 1 ≤ j) : shr a0 (j * k) = 0 ↔ passes a0 k ≤ j := by
  rw [shr_eq_zero_iff, passes, max_le_iff, Nat.div_le_iff_le_mul_add_pred hk, Nat.mul_comm k j]
  omega

/-- The state after j of p passes, as 70_reset_and_hazards.md R102 gives it. -/
structure AfterPasses (a0 k : Nat) (tape : Memory) (j : Nat) (t : State) : Prop where
  running : t.status = .running
  sameTape : t.tape = tape
  shifted : t.a = shr a0 (j * k)
  pcAt : t.pc = if j = passes a0 k then tape.length else 0

/-- Each of the p passes is made (70_reset_and_hazards.md R102). -/
theorem exists_run_of_passes {tape : Memory} {body : List Instr} (a0 b0 c0 : Nat) (hloop : ShrinkingLoop tape body)
    (hshift : 1 ≤ bodyShift body) {j : Nat} (hj : j ≤ passes a0 (bodyShift body)) :
    ∃ t, runFor (j * (tape.length / 2)) (State.launched a0 b0 c0 tape) = .next t ∧
      AfterPasses a0 (bodyShift body) tape j t := by
  induction j with
  | zero =>
    have hpasses : 0 ≠ passes a0 (bodyShift body) := by unfold passes; omega
    refine ⟨State.launched a0 b0 c0 tape, by rw [Nat.zero_mul, runFor_zero], rfl, rfl, ?_, ?_⟩
    · rw [Nat.zero_mul, shr_zero, State.launched_a]
    · rw [if_neg hpasses, State.launched_pc]
  | succ j ih =>
    obtain ⟨u, hsteps, hu⟩ := ih (by omega)
    have hpc : u.pc = 0 := by rw [hu.pcAt, if_neg (by omega)]
    obtain ⟨t, hpass, hrunning, htape, ha, htpc⟩ := exists_run_of_pass hloop hu.running hu.sameTape hpc
    have hshifted : t.a = shr a0 ((j + 1) * bodyShift body) := by rw [ha, hu.shifted, shr_shr, Nat.succ_mul]
    have hzero : t.a = 0 ↔ j + 1 = passes a0 (bodyShift body) := by
      rw [hshifted, shr_mul_eq_zero_iff hshift (by omega)]
      omega
    refine ⟨t, ?_, hrunning, htape, hshifted, ?_⟩
    · rw [Nat.succ_mul, runFor_add_of_next hsteps, hpass]
    · simp only [htpc, hzero]

/-- Settles O44: the passes by `exists_run_of_passes`; after the last one A is 0 and the halting test fires. -/
theorem shrinkingLoopsHalt : Obligations.ShrinkingLoopsHalt := by
  intro a0 b0 c0 tape body heven hdecodes hbody hshift
  have hloop : ShrinkingLoop tape body := ⟨heven, hdecodes, hbody⟩
  refine ⟨fun j hj => ?passes, ?halts⟩
  case passes =>
    obtain ⟨t, hsteps, hafter⟩ := exists_run_of_passes a0 b0 c0 hloop hshift hj
    exact ⟨t, hsteps, hafter.running, hafter.shifted, hafter.pcAt⟩
  case halts =>
    obtain ⟨t, hsteps, hrunning, htape, hshifted, hpc⟩ := exists_run_of_passes a0 b0 c0 hloop hshift le_rfl
    rw [if_pos rfl] at hpc
    have hzero : t.a = 0 := hshifted.trans ((shr_mul_eq_zero_iff hshift (le_max_left _ _)).mpr le_rfl)
    have hhalt : step t = .next (halt t) := step_of_length_le hrunning (by rw [htape, hpc]; omega)
    refine ⟨halt t, ?_, halt_status t, hzero, hpc⟩
    rw [runFor_add_of_next hsteps, runFor_succ_eq_next_iff]
    exact ⟨halt t, hhalt, rfl⟩

end Sys2Proof.Machine
